-- ==== Sys2Proof/Word.lean ====
section
/-! DEFINITION. The widths of the machine's values (spec R6, R21, R50): a word is 32 bits, a halfword 16, a byte 8; a register
identifier is one of 0..31. -/

namespace Sys2Proof

/-- A register value, an address while it is computed, an instruction word, a memory word (R6, R21, R25, R50). -/
abbrev Word := BitVec 32

/-- 16 bits (R6). -/
abbrev Half := BitVec 16

/-- 8 bits (R6). -/
abbrev Byte := BitVec 8

/-- A general register identifier: an integer 0..31 (R21, R96). -/
abbrev RegIdx := Fin 32

end Sys2Proof
end

