-- ==== Sys2Proof/Syntax.lean ====
section
/-! DEFINITION. The instructions of the baseline table MARS-CORE-BASE: one constructor for each of the 53 rows of R104
(52 instructions and the sentinel). Arguments stand in the order of the assembler syntax (destination first, R104); a load
or store `op rt, imm(rs)` is written `op rt imm rs`, and a branch carries its 16-bit offset field in place of the label. -/

namespace Sys2Proof

/-- A decoded instruction with the fields its row uses (R91, R96, R104). -/
inductive Instr where
  -- system (R210)
  | halt
  | syscall
  | break_ (code : BitVec 20)
  -- shifts (R160)
  | sll (rd rt : RegIdx) (sa : BitVec 5)
  | srl (rd rt : RegIdx) (sa : BitVec 5)
  | sra (rd rt : RegIdx) (sa : BitVec 5)
  | sllv (rd rt rs : RegIdx)
  | srlv (rd rt rs : RegIdx)
  | srav (rd rt rs : RegIdx)
  -- jumps through a register (R138, R122)
  | jr (rs : RegIdx)
  | jalr (rd rs : RegIdx)
  -- HI and LO (R168)
  | mfhi (rd : RegIdx)
  | mflo (rd : RegIdx)
  | mthi (rs : RegIdx)
  | mtlo (rs : RegIdx)
  | mult (rs rt : RegIdx)
  | multu (rs rt : RegIdx)
  | div (rs rt : RegIdx)
  | divu (rs rt : RegIdx)
  -- three-register ALU (R141 to R150)
  | add (rd rs rt : RegIdx)
  | addu (rd rs rt : RegIdx)
  | sub (rd rs rt : RegIdx)
  | subu (rd rs rt : RegIdx)
  | and (rd rs rt : RegIdx)
  | or (rd rs rt : RegIdx)
  | xor (rd rs rt : RegIdx)
  | nor (rd rs rt : RegIdx)
  | slt (rd rs rt : RegIdx)
  | sltu (rd rs rt : RegIdx)
  -- branches and jumps (R130)
  | bltz (rs : RegIdx) (imm : BitVec 16)
  | bgez (rs : RegIdx) (imm : BitVec 16)
  | j (target : BitVec 26)
  | jal (target : BitVec 26)
  | beq (rs rt : RegIdx) (imm : BitVec 16)
  | bne (rs rt : RegIdx) (imm : BitVec 16)
  | blez (rs : RegIdx) (imm : BitVec 16)
  | bgtz (rs : RegIdx) (imm : BitVec 16)
  -- immediate ALU (R151 to R158)
  | addi (rt rs : RegIdx) (imm : BitVec 16)
  | addiu (rt rs : RegIdx) (imm : BitVec 16)
  | slti (rt rs : RegIdx) (imm : BitVec 16)
  | sltiu (rt rs : RegIdx) (imm : BitVec 16)
  | andi (rt rs : RegIdx) (imm : BitVec 16)
  | ori (rt rs : RegIdx) (imm : BitVec 16)
  | xori (rt rs : RegIdx) (imm : BitVec 16)
  | lui (rt : RegIdx) (imm : BitVec 16)
  -- loads and stores (R190)
  | lb (rt : RegIdx) (imm : BitVec 16) (rs : RegIdx)
  | lh (rt : RegIdx) (imm : BitVec 16) (rs : RegIdx)
  | lw (rt : RegIdx) (imm : BitVec 16) (rs : RegIdx)
  | lbu (rt : RegIdx) (imm : BitVec 16) (rs : RegIdx)
  | lhu (rt : RegIdx) (imm : BitVec 16) (rs : RegIdx)
  | sb (rt : RegIdx) (imm : BitVec 16) (rs : RegIdx)
  | sh (rt : RegIdx) (imm : BitVec 16) (rs : RegIdx)
  | sw (rt : RegIdx) (imm : BitVec 16) (rs : RegIdx)
  deriving DecidableEq, Repr

/-- The document's five instruction categories (R103). -/
inductive Category where
  | call
  | branch
  | arithmetic
  | memory
  | system
  deriving DecidableEq, Repr

/-- The format of a row (R92 to R94); the sentinel has none (R104). -/
inductive Format where
  | sentinel
  | r
  | i
  | j
  deriving DecidableEq, Repr

end Sys2Proof
end

