-- ==== Sys2Proof/WellFormed.lean ====
section
/-! DEFINITION. Which terms of Instr are instructions of the machine. The types of the fields already keep every register
number, shift amount, immediate, target and code in range (R91); what remains is R105: `sll $zero, $zero, 0` does not exist,
since its word is the sentinel. -/

namespace Sys2Proof

/-- The term is an instruction the machine has: anything but the `sll` whose word is all zero (R105, R161). -/
def Instr.wellFormed (i : Instr) : Bool :=
  match i with
  | .sll rd rt sa => !(rd == 0 && rt == 0 && sa == 0)
  | .halt | .syscall | .break_ _ | .srl _ _ _ | .sra _ _ _ | .sllv _ _ _ | .srlv _ _ _ | .srav _ _ _ => true
  | .jr _ | .jalr _ _ | .mfhi _ | .mflo _ | .mthi _ | .mtlo _ | .mult _ _ | .multu _ _ | .div _ _ | .divu _ _ => true
  | .add _ _ _ | .addu _ _ _ | .sub _ _ _ | .subu _ _ _ | .and _ _ _ | .or _ _ _ | .xor _ _ _ | .nor _ _ _ => true
  | .slt _ _ _ | .sltu _ _ _ | .bltz _ _ | .bgez _ _ | .j _ | .jal _ | .beq _ _ _ | .bne _ _ _ | .blez _ _ => true
  | .bgtz _ _ | .addi _ _ _ | .addiu _ _ _ | .slti _ _ _ | .sltiu _ _ _ | .andi _ _ _ | .ori _ _ _ => true
  | .xori _ _ _ | .lui _ _ | .lb _ _ _ | .lh _ _ _ | .lw _ _ _ | .lbu _ _ _ | .lhu _ _ _ => true
  | .sb _ _ _ | .sh _ _ _ | .sw _ _ _ => true

end Sys2Proof
end

