-- ==== Sys2Proof/Decode.lean ====
section
/-! DEFINITION. Encoding: the fields of an instruction word (R91), the decoder (R97 to R101, R105, R106), the encoder, and the
descriptor of each row (R102 to R104). Decoding is a pure function of the word (R90). -/

namespace Sys2Proof

/-! ## Bytes and words -/

/-- The word whose byte `k` (bits 8k+7..8k) is the `k`-th argument: byte 0 is the least significant (R51, R64). -/
def wordOfBytes (b0 b1 b2 b3 : Byte) : Word :=
  b0.setWidth 32 ||| (b1.setWidth 32 <<< 8) ||| (b2.setWidth 32 <<< 16) ||| (b3.setWidth 32 <<< 24)

/-- Byte number `k` of a word: bits 8k+7..8k (R51). -/
def byteOfWord (v : Word) (k : Nat) : Byte := v.extractLsb' (8 * k) 8

/-! ## Fields of an instruction word (R91) -/

/-- `op`, bits 31:26. -/
def fieldOp (w : Word) : BitVec 6 := w.extractLsb' 26 6

/-- Bits 25:21 as a bit field. -/
def bitsRs (w : Word) : BitVec 5 := w.extractLsb' 21 5

/-- Bits 20:16 as a bit field: the sub-opcode under major opcode 1 (R101). -/
def bitsRt (w : Word) : BitVec 5 := w.extractLsb' 16 5

/-- Bits 15:11 as a bit field. -/
def bitsRd (w : Word) : BitVec 5 := w.extractLsb' 11 5

/-- `sa`, bits 10:6. -/
def fieldSa (w : Word) : BitVec 5 := w.extractLsb' 6 5

/-- `funct`, bits 5:0. -/
def fieldFunct (w : Word) : BitVec 6 := w.extractLsb' 0 6

/-- `imm`, bits 15:0. -/
def fieldImm (w : Word) : BitVec 16 := w.extractLsb' 0 16

/-- `target`, bits 25:0. -/
def fieldTarget (w : Word) : BitVec 26 := w.extractLsb' 0 26

/-- `code`, bits 25:6: the uninterpreted field of `break`. -/
def fieldCode (w : Word) : BitVec 20 := w.extractLsb' 6 20

/-- `rs` as a register identifier (R96). -/
def fieldRs (w : Word) : RegIdx := (bitsRs w).toFin

/-- `rt` as a register identifier (R96). -/
def fieldRt (w : Word) : RegIdx := (bitsRt w).toFin

/-- `rd` as a register identifier (R96). -/
def fieldRd (w : Word) : RegIdx := (bitsRd w).toFin

/-- A register identifier as the 5-bit field that names it (R96). -/
def regBits (r : RegIdx) : BitVec 5 := BitVec.ofFin r

/-! ## Decoding -/

/-- Why a word or a byte string is no instruction. -/
inductive DecodeError where
  /-- No row of R104 matches and the word is not zero (R97, R106). -/
  | invalidInstruction
  /-- Fewer bytes than the one instruction length, 4 (R90). Only the byte form can meet it: a fetch reads a whole word (R63). -/
  | truncated
  deriving DecidableEq, Repr

/-- Strict matching (R98): the fields a row does not use must be zero. -/
def strict (unusedAreZero : Bool) (i : Instr) : Except DecodeError Instr :=
  if unusedAreZero then .ok i else .error .invalidInstruction

/-- Major opcode 0, selected by `funct` (R92, R98, R100). -/
def decodeSpecial (w : Word) : Except DecodeError Instr :=
  let rs := fieldRs w
  let rt := fieldRt w
  let rd := fieldRd w
  let sa := fieldSa w
  match fieldFunct w with
  | 0x00#6 => strict (rs == 0) (.sll rd rt sa)
  | 0x02#6 => strict (rs == 0) (.srl rd rt sa)
  | 0x03#6 => strict (rs == 0) (.sra rd rt sa)
  | 0x04#6 => strict (sa == 0) (.sllv rd rt rs)
  | 0x06#6 => strict (sa == 0) (.srlv rd rt rs)
  | 0x07#6 => strict (sa == 0) (.srav rd rt rs)
  | 0x08#6 => strict (rt == 0 && rd == 0 && sa == 0) (.jr rs)
  | 0x09#6 => strict (rt == 0 && sa == 0) (.jalr rd rs)
  | 0x0c#6 => strict (fieldCode w == 0) .syscall
  | 0x0d#6 => .ok (.break_ (fieldCode w))
  | 0x10#6 => strict (rs == 0 && rt == 0 && sa == 0) (.mfhi rd)
  | 0x11#6 => strict (rt == 0 && rd == 0 && sa == 0) (.mthi rs)
  | 0x12#6 => strict (rs == 0 && rt == 0 && sa == 0) (.mflo rd)
  | 0x13#6 => strict (rt == 0 && rd == 0 && sa == 0) (.mtlo rs)
  | 0x18#6 => strict (rd == 0 && sa == 0) (.mult rs rt)
  | 0x19#6 => strict (rd == 0 && sa == 0) (.multu rs rt)
  | 0x1a#6 => strict (rd == 0 && sa == 0) (.div rs rt)
  | 0x1b#6 => strict (rd == 0 && sa == 0) (.divu rs rt)
  | 0x20#6 => strict (sa == 0) (.add rd rs rt)
  | 0x21#6 => strict (sa == 0) (.addu rd rs rt)
  | 0x22#6 => strict (sa == 0) (.sub rd rs rt)
  | 0x23#6 => strict (sa == 0) (.subu rd rs rt)
  | 0x24#6 => strict (sa == 0) (.and rd rs rt)
  | 0x25#6 => strict (sa == 0) (.or rd rs rt)
  | 0x26#6 => strict (sa == 0) (.xor rd rs rt)
  | 0x27#6 => strict (sa == 0) (.nor rd rs rt)
  | 0x2a#6 => strict (sa == 0) (.slt rd rs rt)
  | 0x2b#6 => strict (sa == 0) (.sltu rd rs rt)
  | _ => .error .invalidInstruction

/-- Major opcode 1, selected by the sub-opcode in `rt` (R93, R101). -/
def decodeRegimm (w : Word) : Except DecodeError Instr :=
  match bitsRt w with
  | 0x00#5 => .ok (.bltz (fieldRs w) (fieldImm w))
  | 0x01#5 => .ok (.bgez (fieldRs w) (fieldImm w))
  | _ => .error .invalidInstruction

/-- The decoder (R97): the all-zero word is the sentinel (R105); every other word goes by its major opcode (R99), and a word
that matches no row is refused (R106, R107). -/
def decodeWord (w : Word) : Except DecodeError Instr :=
  if w = 0 then .ok .halt
  else
    let rs := fieldRs w
    let rt := fieldRt w
    let imm := fieldImm w
    match fieldOp w with
    | 0x00#6 => decodeSpecial w
    | 0x01#6 => decodeRegimm w
    | 0x02#6 => .ok (.j (fieldTarget w))
    | 0x03#6 => .ok (.jal (fieldTarget w))
    | 0x04#6 => .ok (.beq rs rt imm)
    | 0x05#6 => .ok (.bne rs rt imm)
    | 0x06#6 => strict (rt == 0) (.blez rs imm)
    | 0x07#6 => strict (rt == 0) (.bgtz rs imm)
    | 0x08#6 => .ok (.addi rt rs imm)
    | 0x09#6 => .ok (.addiu rt rs imm)
    | 0x0a#6 => .ok (.slti rt rs imm)
    | 0x0b#6 => .ok (.sltiu rt rs imm)
    | 0x0c#6 => .ok (.andi rt rs imm)
    | 0x0d#6 => .ok (.ori rt rs imm)
    | 0x0e#6 => .ok (.xori rt rs imm)
    | 0x0f#6 => strict (rs == 0) (.lui rt imm)
    | 0x20#6 => .ok (.lb rt imm rs)
    | 0x21#6 => .ok (.lh rt imm rs)
    | 0x23#6 => .ok (.lw rt imm rs)
    | 0x24#6 => .ok (.lbu rt imm rs)
    | 0x25#6 => .ok (.lhu rt imm rs)
    | 0x28#6 => .ok (.sb rt imm rs)
    | 0x29#6 => .ok (.sh rt imm rs)
    | 0x2b#6 => .ok (.sw rt imm rs)
    | _ => .error .invalidInstruction

/-- The decoder on bytes in the order memory holds them: the instruction at the head and the bytes after it (R64, R90). -/
def decodeBytes : List Byte → Except DecodeError (Instr × List Byte)
  | b0 :: b1 :: b2 :: b3 :: rest =>
    match decodeWord (wordOfBytes b0 b1 b2 b3) with
    | .ok i => .ok (i, rest)
    | .error e => .error e
  | _ => .error .truncated

/-- The four bytes of a word, lowest address first (R64). -/
def bytesOfWord (v : Word) : List Byte :=
  [byteOfWord v 0, byteOfWord v 1, byteOfWord v 2, byteOfWord v 3]

/-- The word an opcode-table row's bits stand for: bit 0 is bit 0 of the one instruction word, and every bit above the row's
`nbits` is zero. -/
def tableWord (nbits w : Nat) : Word := BitVec.ofNat 32 (w % 2 ^ nbits)

/-- The instruction the decoder reads from a word numbered as the opcode table numbers it, laid out little-endian as the
hardware stores it (R64). -/
def decodeTableWord (nbits w : Nat) : Option Instr :=
  match decodeBytes (bytesOfWord (tableWord nbits w)) with
  | .ok (i, _) => some i
  | .error _ => none

/-! ## Encoding -/

/-- R format (R92): `000000 rs rt rd sa funct`. -/
def packR (rs rt rd sa : BitVec 5) (funct : BitVec 6) : Word :=
  (rs.setWidth 32 <<< 21) ||| (rt.setWidth 32 <<< 16) ||| (rd.setWidth 32 <<< 11) ||| (sa.setWidth 32 <<< 6)
    ||| funct.setWidth 32

/-- I format (R93): `op rs rt imm`. -/
def packI (op : BitVec 6) (rs rt : BitVec 5) (imm : BitVec 16) : Word :=
  (op.setWidth 32 <<< 26) ||| (rs.setWidth 32 <<< 21) ||| (rt.setWidth 32 <<< 16) ||| imm.setWidth 32

/-- J format (R94): `op target`. -/
def packJ (op : BitVec 6) (target : BitVec 26) : Word :=
  (op.setWidth 32 <<< 26) ||| target.setWidth 32

/-- The word of `break code` (R212): `000000 code 001101`. -/
def packBreak (code : BitVec 20) : Word :=
  (code.setWidth 32 <<< 6) ||| 0x0000000d#32

/-- The word of an instruction, from the encoding line of its own rule. -/
def encode (i : Instr) : Word :=
  match i with
  | .halt => 0
  | .syscall => packR 0 0 0 0 0x0c
  | .break_ code => packBreak code
  | .sll rd rt sa => packR 0 (regBits rt) (regBits rd) sa 0x00
  | .srl rd rt sa => packR 0 (regBits rt) (regBits rd) sa 0x02
  | .sra rd rt sa => packR 0 (regBits rt) (regBits rd) sa 0x03
  | .sllv rd rt rs => packR (regBits rs) (regBits rt) (regBits rd) 0 0x04
  | .srlv rd rt rs => packR (regBits rs) (regBits rt) (regBits rd) 0 0x06
  | .srav rd rt rs => packR (regBits rs) (regBits rt) (regBits rd) 0 0x07
  | .jr rs => packR (regBits rs) 0 0 0 0x08
  | .jalr rd rs => packR (regBits rs) 0 (regBits rd) 0 0x09
  | .mfhi rd => packR 0 0 (regBits rd) 0 0x10
  | .mthi rs => packR (regBits rs) 0 0 0 0x11
  | .mflo rd => packR 0 0 (regBits rd) 0 0x12
  | .mtlo rs => packR (regBits rs) 0 0 0 0x13
  | .mult rs rt => packR (regBits rs) (regBits rt) 0 0 0x18
  | .multu rs rt => packR (regBits rs) (regBits rt) 0 0 0x19
  | .div rs rt => packR (regBits rs) (regBits rt) 0 0 0x1a
  | .divu rs rt => packR (regBits rs) (regBits rt) 0 0 0x1b
  | .add rd rs rt => packR (regBits rs) (regBits rt) (regBits rd) 0 0x20
  | .addu rd rs rt => packR (regBits rs) (regBits rt) (regBits rd) 0 0x21
  | .sub rd rs rt => packR (regBits rs) (regBits rt) (regBits rd) 0 0x22
  | .subu rd rs rt => packR (regBits rs) (regBits rt) (regBits rd) 0 0x23
  | .and rd rs rt => packR (regBits rs) (regBits rt) (regBits rd) 0 0x24
  | .or rd rs rt => packR (regBits rs) (regBits rt) (regBits rd) 0 0x25
  | .xor rd rs rt => packR (regBits rs) (regBits rt) (regBits rd) 0 0x26
  | .nor rd rs rt => packR (regBits rs) (regBits rt) (regBits rd) 0 0x27
  | .slt rd rs rt => packR (regBits rs) (regBits rt) (regBits rd) 0 0x2a
  | .sltu rd rs rt => packR (regBits rs) (regBits rt) (regBits rd) 0 0x2b
  | .bltz rs imm => packI 0x01 (regBits rs) 0x00 imm
  | .bgez rs imm => packI 0x01 (regBits rs) 0x01 imm
  | .j target => packJ 0x02 target
  | .jal target => packJ 0x03 target
  | .beq rs rt imm => packI 0x04 (regBits rs) (regBits rt) imm
  | .bne rs rt imm => packI 0x05 (regBits rs) (regBits rt) imm
  | .blez rs imm => packI 0x06 (regBits rs) 0 imm
  | .bgtz rs imm => packI 0x07 (regBits rs) 0 imm
  | .addi rt rs imm => packI 0x08 (regBits rs) (regBits rt) imm
  | .addiu rt rs imm => packI 0x09 (regBits rs) (regBits rt) imm
  | .slti rt rs imm => packI 0x0a (regBits rs) (regBits rt) imm
  | .sltiu rt rs imm => packI 0x0b (regBits rs) (regBits rt) imm
  | .andi rt rs imm => packI 0x0c (regBits rs) (regBits rt) imm
  | .ori rt rs imm => packI 0x0d (regBits rs) (regBits rt) imm
  | .xori rt rs imm => packI 0x0e (regBits rs) (regBits rt) imm
  | .lui rt imm => packI 0x0f 0 (regBits rt) imm
  | .lb rt imm rs => packI 0x20 (regBits rs) (regBits rt) imm
  | .lh rt imm rs => packI 0x21 (regBits rs) (regBits rt) imm
  | .lw rt imm rs => packI 0x23 (regBits rs) (regBits rt) imm
  | .lbu rt imm rs => packI 0x24 (regBits rs) (regBits rt) imm
  | .lhu rt imm rs => packI 0x25 (regBits rs) (regBits rt) imm
  | .sb rt imm rs => packI 0x28 (regBits rs) (regBits rt) imm
  | .sh rt imm rs => packI 0x29 (regBits rs) (regBits rt) imm
  | .sw rt imm rs => packI 0x2b (regBits rs) (regBits rt) imm

/-! ## The descriptor (R102 to R104) -/

/-- The mnemonic of an instruction, as R104 spells it. Nothing dispatches on it (R102). -/
def Instr.mnemonic (i : Instr) : String :=
  match i with
  | .halt => "halt"
  | .syscall => "syscall"
  | .break_ _ => "break"
  | .sll _ _ _ => "sll"
  | .srl _ _ _ => "srl"
  | .sra _ _ _ => "sra"
  | .sllv _ _ _ => "sllv"
  | .srlv _ _ _ => "srlv"
  | .srav _ _ _ => "srav"
  | .jr _ => "jr"
  | .jalr _ _ => "jalr"
  | .mfhi _ => "mfhi"
  | .mflo _ => "mflo"
  | .mthi _ => "mthi"
  | .mtlo _ => "mtlo"
  | .mult _ _ => "mult"
  | .multu _ _ => "multu"
  | .div _ _ => "div"
  | .divu _ _ => "divu"
  | .add _ _ _ => "add"
  | .addu _ _ _ => "addu"
  | .sub _ _ _ => "sub"
  | .subu _ _ _ => "subu"
  | .and _ _ _ => "and"
  | .or _ _ _ => "or"
  | .xor _ _ _ => "xor"
  | .nor _ _ _ => "nor"
  | .slt _ _ _ => "slt"
  | .sltu _ _ _ => "sltu"
  | .bltz _ _ => "bltz"
  | .bgez _ _ => "bgez"
  | .j _ => "j"
  | .jal _ => "jal"
  | .beq _ _ _ => "beq"
  | .bne _ _ _ => "bne"
  | .blez _ _ => "blez"
  | .bgtz _ _ => "bgtz"
  | .addi _ _ _ => "addi"
  | .addiu _ _ _ => "addiu"
  | .slti _ _ _ => "slti"
  | .sltiu _ _ _ => "sltiu"
  | .andi _ _ _ => "andi"
  | .ori _ _ _ => "ori"
  | .xori _ _ _ => "xori"
  | .lui _ _ => "lui"
  | .lb _ _ _ => "lb"
  | .lh _ _ _ => "lh"
  | .lw _ _ _ => "lw"
  | .lbu _ _ _ => "lbu"
  | .lhu _ _ _ => "lhu"
  | .sb _ _ _ => "sb"
  | .sh _ _ _ => "sh"
  | .sw _ _ _ => "sw"

/-- The category of an instruction, decided at decode (R103). Only step-over reads it (R250). -/
def Instr.category (i : Instr) : Category :=
  match i with
  | .jalr _ _ | .jal _ => .call
  | .jr _ | .bltz _ _ | .bgez _ _ | .j _ | .beq _ _ _ | .bne _ _ _ | .blez _ _ | .bgtz _ _ => .branch
  | .lb _ _ _ | .lh _ _ _ | .lw _ _ _ | .lbu _ _ _ | .lhu _ _ _ | .sb _ _ _ | .sh _ _ _ | .sw _ _ _ => .memory
  | .halt | .syscall | .break_ _ => .system
  | .sll _ _ _ | .srl _ _ _ | .sra _ _ _ | .sllv _ _ _ | .srlv _ _ _ | .srav _ _ _ | .mfhi _ | .mflo _
  | .mthi _ | .mtlo _ | .mult _ _ | .multu _ _ | .div _ _ | .divu _ _ | .add _ _ _ | .addu _ _ _ | .sub _ _ _
  | .subu _ _ _ | .and _ _ _ | .or _ _ _ | .xor _ _ _ | .nor _ _ _ | .slt _ _ _ | .sltu _ _ _ | .addi _ _ _
  | .addiu _ _ _ | .slti _ _ _ | .sltiu _ _ _ | .andi _ _ _ | .ori _ _ _ | .xori _ _ _ | .lui _ _ => .arithmetic

/-- One row of R104, the document's "resolved instruction descriptor" (R102): a word `w` is the row's instruction when `w &&& mask = mtch`. -/
structure Row where
  mnemonic : String
  format   : Format
  mtch     : Word
  mask     : Word
  category : Category
  /-- The number of the rule R<n> that gives the instruction's effect. -/
  rule     : Nat
  deriving DecidableEq, Repr

/-- The sentinel's row of R104: the first test of the decoder (R97). -/
def haltRow : Row := ⟨"halt", .sentinel, 0x00000000, 0xffffffff, .system, 213⟩

/-- R104: the R-format rows. -/
def rowsR : List Row :=
  [ ⟨"sll", .r, 0x00000000, 0xffe0003f, .arithmetic, 161⟩,
    ⟨"srl", .r, 0x00000002, 0xffe0003f, .arithmetic, 162⟩,
    ⟨"sra", .r, 0x00000003, 0xffe0003f, .arithmetic, 163⟩,
    ⟨"sllv", .r, 0x00000004, 0xfc0007ff, .arithmetic, 164⟩,
    ⟨"srlv", .r, 0x00000006, 0xfc0007ff, .arithmetic, 165⟩,
    ⟨"srav", .r, 0x00000007, 0xfc0007ff, .arithmetic, 166⟩,
    ⟨"jr", .r, 0x00000008, 0xfc1fffff, .branch, 138⟩,
    ⟨"jalr", .r, 0x00000009, 0xfc1f07ff, .call, 122⟩,
    ⟨"syscall", .r, 0x0000000c, 0xffffffff, .system, 211⟩,
    ⟨"break", .r, 0x0000000d, 0xfc00003f, .system, 212⟩,
    ⟨"mfhi", .r, 0x00000010, 0xffff07ff, .arithmetic, 173⟩,
    ⟨"mflo", .r, 0x00000012, 0xffff07ff, .arithmetic, 174⟩,
    ⟨"mthi", .r, 0x00000011, 0xfc1fffff, .arithmetic, 175⟩,
    ⟨"mtlo", .r, 0x00000013, 0xfc1fffff, .arithmetic, 176⟩,
    ⟨"mult", .r, 0x00000018, 0xfc00ffff, .arithmetic, 169⟩,
    ⟨"multu", .r, 0x00000019, 0xfc00ffff, .arithmetic, 170⟩,
    ⟨"div", .r, 0x0000001a, 0xfc00ffff, .arithmetic, 171⟩,
    ⟨"divu", .r, 0x0000001b, 0xfc00ffff, .arithmetic, 172⟩,
    ⟨"add", .r, 0x00000020, 0xfc0007ff, .arithmetic, 141⟩,
    ⟨"addu", .r, 0x00000021, 0xfc0007ff, .arithmetic, 142⟩,
    ⟨"sub", .r, 0x00000022, 0xfc0007ff, .arithmetic, 143⟩,
    ⟨"subu", .r, 0x00000023, 0xfc0007ff, .arithmetic, 144⟩,
    ⟨"and", .r, 0x00000024, 0xfc0007ff, .arithmetic, 145⟩,
    ⟨"or", .r, 0x00000025, 0xfc0007ff, .arithmetic, 146⟩,
    ⟨"xor", .r, 0x00000026, 0xfc0007ff, .arithmetic, 147⟩,
    ⟨"nor", .r, 0x00000027, 0xfc0007ff, .arithmetic, 148⟩,
    ⟨"slt", .r, 0x0000002a, 0xfc0007ff, .arithmetic, 149⟩,
    ⟨"sltu", .r, 0x0000002b, 0xfc0007ff, .arithmetic, 150⟩ ]

/-- R104: the I-format rows. -/
def rowsI : List Row :=
  [ ⟨"bltz", .i, 0x04000000, 0xfc1f0000, .branch, 135⟩,
    ⟨"bgez", .i, 0x04010000, 0xfc1f0000, .branch, 136⟩,
    ⟨"beq", .i, 0x10000000, 0xfc000000, .branch, 131⟩,
    ⟨"bne", .i, 0x14000000, 0xfc000000, .branch, 132⟩,
    ⟨"blez", .i, 0x18000000, 0xfc1f0000, .branch, 133⟩,
    ⟨"bgtz", .i, 0x1c000000, 0xfc1f0000, .branch, 134⟩,
    ⟨"addi", .i, 0x20000000, 0xfc000000, .arithmetic, 151⟩,
    ⟨"addiu", .i, 0x24000000, 0xfc000000, .arithmetic, 152⟩,
    ⟨"slti", .i, 0x28000000, 0xfc000000, .arithmetic, 153⟩,
    ⟨"sltiu", .i, 0x2c000000, 0xfc000000, .arithmetic, 154⟩,
    ⟨"andi", .i, 0x30000000, 0xfc000000, .arithmetic, 155⟩,
    ⟨"ori", .i, 0x34000000, 0xfc000000, .arithmetic, 156⟩,
    ⟨"xori", .i, 0x38000000, 0xfc000000, .arithmetic, 157⟩,
    ⟨"lui", .i, 0x3c000000, 0xffe00000, .arithmetic, 158⟩,
    ⟨"lb", .i, 0x80000000, 0xfc000000, .memory, 191⟩,
    ⟨"lh", .i, 0x84000000, 0xfc000000, .memory, 193⟩,
    ⟨"lw", .i, 0x8c000000, 0xfc000000, .memory, 195⟩,
    ⟨"lbu", .i, 0x90000000, 0xfc000000, .memory, 192⟩,
    ⟨"lhu", .i, 0x94000000, 0xfc000000, .memory, 194⟩,
    ⟨"sb", .i, 0xa0000000, 0xfc000000, .memory, 196⟩,
    ⟨"sh", .i, 0xa4000000, 0xfc000000, .memory, 197⟩,
    ⟨"sw", .i, 0xac000000, 0xfc000000, .memory, 198⟩ ]

/-- R104: the J-format rows. -/
def rowsJ : List Row :=
  [ ⟨"j", .j, 0x08000000, 0xfc000000, .branch, 137⟩,
    ⟨"jal", .j, 0x0c000000, 0xfc000000, .call, 121⟩ ]

/-- The table of R104 less the sentinel: the rows the decoder's loop runs over (R97). -/
def opcodeRows : List Row := rowsR ++ rowsI ++ rowsJ

/-- The row's pattern fits the word (R97, R104). -/
def Row.fits (r : Row) (w : Word) : Bool := w &&& r.mask == r.mtch

/-- A decoded instruction bound to its address: the raw word, the instruction with its operand fields, and with them the
descriptor (R36, R96). A value of one core step, never kept. -/
structure ProgramStatement where
  address : Word
  word    : Word
  instr   : Instr
  deriving DecidableEq, Repr

/-- The statement at an address, from the word fetched there. -/
def programStatement (address word : Word) : Except DecodeError ProgramStatement :=
  match decodeWord word with
  | .ok i => .ok { address := address, word := word, instr := i }
  | .error e => .error e

end Sys2Proof
end

