-- ==== Sys2Proof/Config.lean ====
section
/-! DEFINITION. The parameters of the machine (R5), each at the value the spec gives it, and the one value the spec leaves
opaque (the text of a fault's message, R224). Parameters are no state (R36). -/

namespace Sys2Proof

/-- The three kinds of memory access the engine makes (R53). -/
inductive AccessKind where
  | fetch
  | load
  | store
  deriving DecidableEq, Repr

/-- The named ranges of the address map (R52). The name is for the reader; "kernel" carries no privilege (R52, R234). -/
inductive RegionName where
  | text
  | data
  | kernelText
  | kernelData
  deriving DecidableEq, Repr

/-- One region of parameter MAP: an inclusive byte range and the access kinds it admits (R52). -/
structure Region where
  name    : RegionName
  lowest  : Nat
  highest : Nat
  admits  : List AccessKind
  deriving DecidableEq, Repr

namespace Config

/-- ILEN_BYTES, "the fixed instruction width", as the amount the program counter advances by (R5, R26). -/
def instructionBytes : Word := 4

/-- TEXT_BASE, and the default of ENTRY (R5, R37, R52). -/
def entry : Word := 0x00400000

/-- GP_INIT: the reset value of register 28 (R5, R37). -/
def gpInit : Word := 0x10008000

/-- SP_INIT: the reset value of register 29 (R5, R37). -/
def spInit : Word := 0x7fffeffc

/-- The service number with which `syscall` is the program-exit instruction (R211). -/
def exitService : Word := 10

/-- Parameter MAP at its default: the table of R52. Every address outside the four ranges is unmapped. -/
def memoryMap : List Region :=
  [ { name := .text,       lowest := 0x00400000, highest := 0x0fffffff, admits := [.fetch] },
    { name := .data,       lowest := 0x10000000, highest := 0x7fffffff, admits := [.load, .store] },
    { name := .kernelText, lowest := 0x80000000, highest := 0x8fffffff, admits := [.fetch] },
    { name := .kernelData, lowest := 0x90000000, highest := 0xfffeffff, admits := [.load, .store] } ]

/-- FREE VALUE: the text of a fault record's `message`, for the fault's numeric code (R220) and its `faultingAddress`.
The spec gives no wording and no rule reads it (R31, R224); nothing can be proved about it (log entry 3). -/
opaque faultMessage : Nat → Word → String

end Config

end Sys2Proof
end

