-- ==== Sys2Proof/Machine/State.lean ====
section
/-! DEFINITION. The complete state of the machine (R20) as plain data, its value after reset (R37, R281, R282), and the two
reason types of a step. Fields 1 to 4 of R20 are the hardware block's, 5 to 7 its status outputs, 8 the run controller's; the
last three fields are the model's own (log entries 4 and 5). -/

namespace Sys2Proof.Machine

/-- The memory image `Mem`, a partial map from word-aligned addresses to 32-bit words (R29, R51), as bytes: `cells` lists, in
rising order, the bytes that are not zero; `present` lists, in rising order, the addresses of the words that are present.
A byte not listed reads as zero (R57); whether a word is present is told apart from its value (R62). -/
structure Memory where
  cells   : List Host.Cell
  present : List Nat
  deriving DecidableEq, Repr

/-- Every word absent (R281). -/
def Memory.empty : Memory := { cells := [], present := [] }

/-- The four run states (R30). -/
inductive RunState where
  | idle
  | running
  | paused
  | terminated
  deriving DecidableEq, Repr

/-- The five fault kinds (R220). -/
inductive FaultKind where
  | addressMisaligned
  | addressOutOfRange
  | invalidInstruction
  | arithmeticOverflow
  | other
  deriving DecidableEq, Repr

/-- The fault record (R31): the whole record of a fault. -/
structure FaultRecord where
  kind            : FaultKind
  faultingAddress : Word
  message         : String
  deriving DecidableEq, Repr

/-- The seven termination reasons (R32, R235). -/
inductive Reason where
  | normalCompletion
  | breakpoint
  | pause
  | stop
  | stepLimit
  | fault
  | cliffTermination
  deriving DecidableEq, Repr

/-- The mode of a run invocation (R243). -/
inductive RunMode where
  | continuous
  | single
  deriving DecidableEq, Repr

/-- The pause and stop requests that arrive while one instruction executes (R248: one pair for each completed step). -/
structure Signals where
  pause : Bool
  stop  : Bool
  deriving DecidableEq, Repr

/-- The state (R20). -/
structure State where
  /-- `x[0..31]` (R21); `x[0]` is read and written only through State.reg and State.setReg, which hard-wire it (R23). -/
  regs        : Vector Word 32
  /-- The address of the instruction about to be fetched, and of the one executing (R25). -/
  pc          : Word
  /-- `HI` (R28). -/
  hi          : Word
  /-- `LO` (R28). -/
  lo          : Word
  /-- `Mem` (R29). -/
  mem         : Memory
  /-- `RunState` (R30). -/
  runState    : RunState
  /-- `FaultRecord` (R31). -/
  faultRecord : Option FaultRecord
  /-- `LastReason` (R32). -/
  lastReason  : Option Reason
  /-- `StepCount`: completed core steps of the current run invocation (R33, R246). -/
  stepCount   : Nat
  /-- `PauseReq` (R33, R248). -/
  pauseReq    : Bool
  /-- `StopReq` (R33, R248). -/
  stopReq     : Bool
  /-- `BpSnapshot`: the breakpoint set of the invocation, ascending and without repeats (R33, R244). -/
  bpSnapshot  : List Word
  /-- `Transient`: the step-over return address (R33, R251). -/
  transient   : Option Word
  /-- The running invocation's mode argument, kept while it lasts (R243, R245). MODEL'S OWN field. -/
  mode        : RunMode
  /-- The running invocation's step limit argument, kept while it lasts; at most 0 means unlimited (R245, R246). MODEL'S OWN
  field. -/
  stepLimit   : Int
  /-- The requests still to arrive from outside, the next completed step's first; when the list has run out no request arrives
  (R248, R296). MODEL'S OWN field: the machine's one input from outside. -/
  signals     : List Signals
  deriving DecidableEq, Repr

/-- Why the machine stops without a next state. The spec's own faults (R220) are no such stop: taking one is a next state
(R226), in which the run has ended. -/
inductive Fault where
  /-- Raised by coreStep alone, asked for a core step while RunState is not Running: R230 defines none there. Safe: the
  machine's `step` never asks for one (it leaves such a state as it is, R257). -/
  | coreStepNotRunning
  deriving DecidableEq, Repr

/-- Why a request has no meaning. -/
inductive Refusal where
  /-- Raised by an arm of exec whose instruction has no meaning yet; no arm does. Safe. -/
  | notModelled (mnemonic : String)
  /-- Raised by hostCall for readRegister and readMemoryWord while RunState is Running, where neither port is defined
  (R38, R242, 93_implementation_defined.md U1). Safe: no state is given. -/
  | inspectionWhileRunning
  /-- Raised by hostCall for load with an image that breaks R280: the loader rejects it before it reaches the block
  (R238, R280). Safe: no state is given. -/
  | imageRejected
  deriving DecidableEq, Repr

/-- The machine right after reset, which is `load` of the empty image (R37, R281, R282). -/
def State.reset : State where
  regs        := ((Vector.replicate 32 (0 : Word)).set 28 Config.gpInit).set 29 Config.spInit
  pc          := Config.entry
  hi          := 0
  lo          := 0
  mem         := Memory.empty
  runState    := .idle
  faultRecord := none
  lastReason  := none
  stepCount   := 0
  pauseReq    := false
  stopReq     := false
  bpSnapshot  := []
  transient   := none
  mode        := .continuous
  stepLimit   := 0
  signals     := []

end Sys2Proof.Machine
end

