-- ==== Sys2Proof/Machine/Ops.lean ====
section
/-! DEFINITION. The named operations over registers, program counter and memory (R8 to R11, R50 to R64), taking a fault (R226),
terminating (R228) and ending a run invocation (R253). There is no operation that returns from a fault: the machine has no
handler and no trap-return instruction (R232, R233). -/

namespace Sys2Proof.Machine

/-! ## Registers (R8, R23) -/

/-- `x[r]`: register 0 reads as zero (R8, R23). -/
def State.reg (s : State) (r : RegIdx) : Word := if r = 0 then 0 else s.regs[r]

/-- The register file after a write; a write to register 0 is ignored (R8, R23). -/
def writeRegs (regs : Vector Word 32) (r : RegIdx) (v : Word) : Vector Word 32 :=
  if r = 0 then regs else regs.set r v

/-- `x[r] <- v` (R8). -/
def State.setReg (s : State) (r : RegIdx) (v : Word) : State := { s with regs := writeRegs s.regs r v }

/-- `HI <- h; LO <- l` (R28). -/
def State.setHiLo (s : State) (h l : Word) : State := { s with hi := h, lo := l }

/-- `Mem <- m`. -/
def State.setMem (s : State) (m : Memory) : State := { s with mem := m }

/-! ## Program counter (R11, R26) -/

/-- The address of the following instruction: `(pc + 4) mod 2^32` (R26). -/
def State.nextPc (s : State) : Word := s.pc + Config.instructionBytes

/-- `advanceProgramCounter()`: the end of a step that was not redirected (R26). -/
def State.advance (s : State) : State := { s with pc := s.nextPc }

/-- `pc <- target`, which marks the step redirected and so suppresses the advance (R11). -/
def State.redirect (s : State) (target : Word) : State := { s with pc := target }

/-! ## Memory as bytes (R51, R57, R64) -/

/-- The byte listed at `a`, or zero (R57). -/
def lookupCell : List Host.Cell → Nat → Byte
  | [], _ => 0
  | (b, v) :: rest, a => if b = a then v else lookupCell rest a

/-- The list with byte `v` at `a`: in rising order, a zero byte unlisted. -/
def setCell : List Host.Cell → Nat → Byte → List Host.Cell
  | [], a, v => if v = 0 then [] else [(a, v)]
  | (b, u) :: rest, a, v =>
    if a < b then (if v = 0 then (b, u) :: rest else (a, v) :: (b, u) :: rest)
    else if a = b then (if v = 0 then rest else (a, v) :: rest)
    else (b, u) :: setCell rest a v

/-- The list with bytes `vs` at `a`, `a + 1`, … -/
def setCells : List Host.Cell → Nat → List Byte → List Host.Cell
  | cells, _, [] => cells
  | cells, a, v :: vs => setCells (setCell cells a v) (a + 1) vs

/-- A rising list of addresses with `a` in it. -/
def insertAddress : List Nat → Nat → List Nat
  | [], a => [a]
  | b :: rest, a => if a < b then a :: b :: rest else if a = b then b :: rest else b :: insertAddress rest a

/-- The canonical form: both lists strictly rising, no zero byte listed, no byte outside a present word, and every present
address a word-aligned address of the space (R50, R51). -/
abbrev Memory.wf (m : Memory) : Prop :=
  m.cells.Pairwise (fun c d => c.1 < d.1) ∧
  (∀ c ∈ m.cells, c.2 ≠ 0 ∧ c.1 - c.1 % 4 ∈ m.present) ∧
  m.present.Pairwise (fun a b => a < b) ∧
  (∀ a ∈ m.present, a % 4 = 0 ∧ a < 2 ^ 32)

/-- The byte at `a`; a byte of an absent word is zero (R51, R57). -/
def Memory.byte (m : Memory) (a : Nat) : Byte := lookupCell m.cells a

/-- The word-aligned address `a` is present: it has been written since load (R29, R51). -/
def Memory.isPresent (m : Memory) (a : Nat) : Bool := decide (a ∈ m.present)

/-- The halfword at `a`, low byte first (R60, R64). -/
def Memory.half (m : Memory) (a : Nat) : Half :=
  (m.byte a).setWidth 16 ||| ((m.byte (a + 1)).setWidth 16 <<< 8)

/-- `W(a)`: the word at `a`, low byte first (R51, R64). -/
def Memory.word (m : Memory) (a : Nat) : Word :=
  wordOfBytes (m.byte a) (m.byte (a + 1)) (m.byte (a + 2)) (m.byte (a + 3))

/-- The bytes `vs` stored from `a` upward, all inside one word, which becomes present (R59, R61). -/
def Memory.storeBytes (m : Memory) (a : Nat) (vs : List Byte) : Memory :=
  { cells := setCells m.cells a vs, present := insertAddress m.present (a - a % 4) }

/-- The width of an access: 1, 2 or 4 bytes (R54, R65). -/
inductive Width where
  | byte
  | half
  | word
  deriving DecidableEq, Repr

/-- `n`, the bytes an access moves (R54, R65). -/
def Width.bytes : Width → Nat
  | .byte => 1
  | .half => 2
  | .word => 4

/-- What a read of the given width obtains, unextended (R58, R60). -/
def Memory.read (m : Memory) (w : Width) (a : Nat) : Word :=
  match w with
  | .byte => (m.byte a).setWidth 32
  | .half => (m.half a).setWidth 32
  | .word => m.word a

/-- The memory after the low bytes of `v` are written, low byte at the lowest address (R59, R61, R64). -/
def Memory.write (m : Memory) (w : Width) (a : Nat) (v : Word) : Memory :=
  match w with
  | .byte => m.storeBytes a [byteOfWord v 0]
  | .half => m.storeBytes a [byteOfWord v 0, byteOfWord v 1]
  | .word => m.storeBytes a (bytesOfWord v)

/-- `readWordOrAbsent`: the word if it is present; a misaligned, unmapped or never-written address gives none (R62). -/
def Memory.readWordOrAbsent (m : Memory) (a : Nat) : Option Word :=
  if m.isPresent a then some (m.word a) else none

/-! ## The checks of an access (R52 to R55) -/

/-- Some region of MAP holds all `n` bytes from `a` and admits the kind (R53, R55). -/
def regionAdmits (a n : Nat) (k : AccessKind) : Bool :=
  Config.memoryMap.any fun r => decide (r.lowest ≤ a) && decide (a + n - 1 ≤ r.highest) && r.admits.contains k

/-- `Check(addr, n, kind)`: the fault kind it raises, alignment first (R55); none where the access may go on. -/
def checkAccess (addr : Word) (w : Width) (k : AccessKind) : Option FaultKind :=
  if addr.toNat % w.bytes ≠ 0 then some .addressMisaligned
  else if regionAdmits addr.toNat w.bytes k then none
  else some .addressOutOfRange

/-! ## Ending a run invocation, faults and terminations (R226, R228, R253) -/

/-- `End(state, reason)` with the per-invocation bookkeeping cleared (R245, R253). The report is what State.report reads. -/
def endInvocation (st : RunState) (r : Reason) (s : State) : State :=
  { s with
    runState := st, lastReason := some r,
    stepCount := 0, pauseReq := false, stopReq := false, bpSnapshot := [], transient := none,
    mode := .continuous, stepLimit := 0 }

/-- The numeric code of a fault kind, for uses that need one (R220). -/
def FaultKind.code : FaultKind → Nat
  | .addressMisaligned => 0
  | .addressOutOfRange => 1
  | .invalidInstruction => 2
  | .arithmeticOverflow => 3
  | .other => 4

/-- TAKING A FAULT: `raise Fault(kind, addr)` (R226). The instruction is abandoned, so the argument is the state before it;
the fault record is written, the run ends, and `pc`, registers, `HI`, `LO` and memory stay. Control goes nowhere (R233). -/
def raiseFault (k : FaultKind) (addr : Word) (s : State) : State :=
  endInvocation .terminated .fault
    { s with faultRecord := some { kind := k, faultingAddress := addr, message := Config.faultMessage k.code addr } }

/-- `terminate(reason)`, a termination without a fault (R228). -/
def terminate (r : Reason) (s : State) : State := endInvocation .terminated r s

/-! ## Fetch (R63) -/

/-- `Fetch(pc)`: the word at the program counter, or the fault kind the fetch raises (R63). -/
def fetch (s : State) : Except FaultKind Word :=
  match checkAccess s.pc .word .fetch with
  | some k => .error k
  | none => .ok (s.mem.word s.pc.toNat)

end Sys2Proof.Machine
end

