-- ==== Sys2Proof/Machine/Operands.lean ====
section
/-! DEFINITION. Every operand form (R95, R96): the immediates, the effective address, the branch and jump targets and the shift
amounts, with the extensions they use (R7). A register operand is State.reg. -/

namespace Sys2Proof.Machine

/-- `sext_16` (R7). -/
def sext16 (v : BitVec 16) : Word := v.signExtend 32

/-- `zext_16` (R7). -/
def zext16 (v : BitVec 16) : Word := v.setWidth 32

/-- `sext_8` of the low byte (R7, R191). -/
def sext8OfLow (v : Word) : Word := (v.setWidth 8).signExtend 32

/-- `sext_16` of the low halfword (R7, R193). -/
def sext16OfLow (v : Word) : Word := (v.setWidth 16).signExtend 32

/-- The signed arithmetic immediate of `addi addiu slti sltiu` (R95). -/
def immSigned (imm : BitVec 16) : Word := sext16 imm

/-- The logical immediate of `andi ori xori` (R95). -/
def immLogical (imm : BitVec 16) : Word := zext16 imm

/-- The upper immediate of `lui`: `imm ++ 0x0000` (R95, R158). -/
def immUpper (imm : BitVec 16) : Word := zext16 imm <<< 16

/-- The effective address of a load or store: base plus signed displacement, modulo 2^32 (R95, R190). -/
def effectiveAddress (s : State) (rs : RegIdx) (imm : BitVec 16) : Word := s.reg rs + sext16 imm

/-- The target of a taken branch: `pc + 4 + (sext_16(imm) << 2)`, modulo 2^32 (R95, R130). -/
def branchTarget (s : State) (imm : BitVec 16) : Word := s.nextPc + (sext16 imm <<< 2)

/-- The target of `j` and `jal`: `(pc + 4)[31:28] ++ target ++ 00` (R95, R121, R137). -/
def jumpTarget (s : State) (target : BitVec 26) : Word :=
  (s.nextPc &&& 0xf0000000#32) ||| (target.setWidth 32 <<< 2)

/-- The amount of a constant shift: `sa`, 0..31 (R95, R160). -/
def shiftConst (sa : BitVec 5) : Nat := sa.toNat

/-- The amount of a variable shift: the low five bits of `x[rs]` (R160). -/
def shiftVar (s : State) (rs : RegIdx) : Nat := (s.reg rs).toNat % 32

end Sys2Proof.Machine
end

