-- ==== Sys2Proof/Machine/Flags.lean ====
section
/-! DEFINITION. The machine has no flags (R35): no instruction reads or writes one. What other machines hold in flags is here a
register value (the 0 or 1 of a comparison) or the condition of a fault (signed overflow), both computed from exact integers. -/

namespace Sys2Proof.Machine

/-- The result of a comparison as a register value: 1 or 0 (R35, R149). -/
def boolWord (b : Bool) : Word := if b then 1 else 0

/-- An exact signed result lies outside -2^31..2^31-1, so that `add`, `addi`, `sub` raise ArithmeticOverflow (R141). -/
def overflowsSigned (v : Int) : Bool := decide (v < -2 ^ 31) || decide (2 ^ 31 - 1 < v)

/-- `signed(a) < signed(b)` (R149, R153). -/
def lessSigned (a b : Word) : Bool := decide (a.toInt < b.toInt)

/-- `a < b` as unsigned values (R150, R154). -/
def lessUnsigned (a b : Word) : Bool := decide (a.toNat < b.toNat)

end Sys2Proof.Machine
end

