-- ==== Sys2Proof/Machine/Arithmetic.lean ====
section
/-! DEFINITION. The arithmetic family (R140 to R177): ALU, shifts, multiply and divide, moves of HI and LO. None touches memory
or redirects; each completes by advancing `pc`, but for an overflow of `add`, `addi`, `sub`. -/

namespace Sys2Proof.Machine

/-! ## Shared ends of an arithmetic instruction (R140) -/

/-- Write one general register and advance (R26, R140). -/
def writeResult (rd : RegIdx) (v : Word) (s : State) : Host.Outcome State Fault Refusal :=
  .next (s.setReg rd v).advance

/-- Write an exact signed result, or raise ArithmeticOverflow at `pc` with nothing written (R140, R141). -/
def writeOrOverflow (rd : RegIdx) (exact : Int) (s : State) : Host.Outcome State Fault Refusal :=
  if overflowsSigned exact then .next (raiseFault .arithmeticOverflow s.pc s)
  else writeResult rd (BitVec.ofInt 32 exact) s

/-- Write HI and LO and advance (R168). -/
def writeHiLo (h l : Word) (s : State) : Host.Outcome State Fault Refusal :=
  .next (s.setHiLo h l).advance

/-- Bits 63:32 of an exact product modulo 2^64 (R169). -/
def productHi (p : Int) : Word := (BitVec.ofInt 64 p).extractLsb' 32 32

/-- Bits 31:0 of an exact product modulo 2^64 (R169). -/
def productLo (p : Int) : Word := (BitVec.ofInt 64 p).extractLsb' 0 32

/-- Parameter DIV0 at its default: a zero divisor leaves HI and LO as they are (R5, R171, R172). -/
def divByZero (s : State) : Host.Outcome State Fault Refusal := writeHiLo s.hi s.lo s

/-! ## Three-register ALU instructions (R141 to R150) -/

/-- `add rd, rs, rt`: signed addition with overflow trap (R141). -/
def execAdd (rd rs rt : RegIdx) (s : State) : Host.Outcome State Fault Refusal :=
  writeOrOverflow rd ((s.reg rs).toInt + (s.reg rt).toInt) s

/-- `addu rd, rs, rt`: addition modulo 2^32 (R142). -/
def execAddu (rd rs rt : RegIdx) (s : State) : Host.Outcome State Fault Refusal :=
  writeResult rd (s.reg rs + s.reg rt) s

/-- `sub rd, rs, rt`: signed subtraction with overflow trap (R143). -/
def execSub (rd rs rt : RegIdx) (s : State) : Host.Outcome State Fault Refusal :=
  writeOrOverflow rd ((s.reg rs).toInt - (s.reg rt).toInt) s

/-- `subu rd, rs, rt`: subtraction modulo 2^32 (R144). -/
def execSubu (rd rs rt : RegIdx) (s : State) : Host.Outcome State Fault Refusal :=
  writeResult rd (s.reg rs - s.reg rt) s

/-- `and rd, rs, rt` (R145). -/
def execAnd (rd rs rt : RegIdx) (s : State) : Host.Outcome State Fault Refusal :=
  writeResult rd (s.reg rs &&& s.reg rt) s

/-- `or rd, rs, rt` (R146). -/
def execOr (rd rs rt : RegIdx) (s : State) : Host.Outcome State Fault Refusal :=
  writeResult rd (s.reg rs ||| s.reg rt) s

/-- `xor rd, rs, rt` (R147). -/
def execXor (rd rs rt : RegIdx) (s : State) : Host.Outcome State Fault Refusal :=
  writeResult rd (s.reg rs ^^^ s.reg rt) s

/-- `nor rd, rs, rt` (R148). -/
def execNor (rd rs rt : RegIdx) (s : State) : Host.Outcome State Fault Refusal :=
  writeResult rd (~~~(s.reg rs ||| s.reg rt)) s

/-- `slt rd, rs, rt`: 1 if less, signed (R149). -/
def execSlt (rd rs rt : RegIdx) (s : State) : Host.Outcome State Fault Refusal :=
  writeResult rd (boolWord (lessSigned (s.reg rs) (s.reg rt))) s

/-- `sltu rd, rs, rt`: 1 if less, unsigned (R150). -/
def execSltu (rd rs rt : RegIdx) (s : State) : Host.Outcome State Fault Refusal :=
  writeResult rd (boolWord (lessUnsigned (s.reg rs) (s.reg rt))) s

/-! ## Immediate ALU instructions (R151 to R158) -/

/-- `addi rt, rs, imm`: signed addition with overflow trap (R151). -/
def execAddi (rt rs : RegIdx) (imm : BitVec 16) (s : State) : Host.Outcome State Fault Refusal :=
  writeOrOverflow rt ((s.reg rs).toInt + (immSigned imm).toInt) s

/-- `addiu rt, rs, imm`: addition of the sign-extended immediate modulo 2^32 (R152). -/
def execAddiu (rt rs : RegIdx) (imm : BitVec 16) (s : State) : Host.Outcome State Fault Refusal :=
  writeResult rt (s.reg rs + immSigned imm) s

/-- `slti rt, rs, imm`: signed comparison (R153). -/
def execSlti (rt rs : RegIdx) (imm : BitVec 16) (s : State) : Host.Outcome State Fault Refusal :=
  writeResult rt (boolWord (lessSigned (s.reg rs) (immSigned imm))) s

/-- `sltiu rt, rs, imm`: unsigned comparison with the sign-extended immediate (R154). -/
def execSltiu (rt rs : RegIdx) (imm : BitVec 16) (s : State) : Host.Outcome State Fault Refusal :=
  writeResult rt (boolWord (lessUnsigned (s.reg rs) (immSigned imm))) s

/-- `andi rt, rs, imm` (R155). -/
def execAndi (rt rs : RegIdx) (imm : BitVec 16) (s : State) : Host.Outcome State Fault Refusal :=
  writeResult rt (s.reg rs &&& immLogical imm) s

/-- `ori rt, rs, imm` (R156). -/
def execOri (rt rs : RegIdx) (imm : BitVec 16) (s : State) : Host.Outcome State Fault Refusal :=
  writeResult rt (s.reg rs ||| immLogical imm) s

/-- `xori rt, rs, imm` (R157). -/
def execXori (rt rs : RegIdx) (imm : BitVec 16) (s : State) : Host.Outcome State Fault Refusal :=
  writeResult rt (s.reg rs ^^^ immLogical imm) s

/-- `lui rt, imm` (R158). -/
def execLui (rt : RegIdx) (imm : BitVec 16) (s : State) : Host.Outcome State Fault Refusal :=
  writeResult rt (immUpper imm) s

/-! ## Shifts (R160 to R166) -/

/-- `sll rd, rt, sa` (R161). -/
def execSll (rd rt : RegIdx) (sa : BitVec 5) (s : State) : Host.Outcome State Fault Refusal :=
  writeResult rd (s.reg rt <<< shiftConst sa) s

/-- `srl rd, rt, sa` (R162). -/
def execSrl (rd rt : RegIdx) (sa : BitVec 5) (s : State) : Host.Outcome State Fault Refusal :=
  writeResult rd (s.reg rt >>> shiftConst sa) s

/-- `sra rd, rt, sa` (R163). -/
def execSra (rd rt : RegIdx) (sa : BitVec 5) (s : State) : Host.Outcome State Fault Refusal :=
  writeResult rd ((s.reg rt).sshiftRight (shiftConst sa)) s

/-- `sllv rd, rt, rs` (R164). -/
def execSllv (rd rt rs : RegIdx) (s : State) : Host.Outcome State Fault Refusal :=
  writeResult rd (s.reg rt <<< shiftVar s rs) s

/-- `srlv rd, rt, rs` (R165). -/
def execSrlv (rd rt rs : RegIdx) (s : State) : Host.Outcome State Fault Refusal :=
  writeResult rd (s.reg rt >>> shiftVar s rs) s

/-- `srav rd, rt, rs` (R166). -/
def execSrav (rd rt rs : RegIdx) (s : State) : Host.Outcome State Fault Refusal :=
  writeResult rd ((s.reg rt).sshiftRight (shiftVar s rs)) s

/-! ## Multiply, divide, HI and LO (R168 to R176) -/

/-- `mult rs, rt`: exact signed product (R169). -/
def execMult (rs rt : RegIdx) (s : State) : Host.Outcome State Fault Refusal :=
  writeHiLo (productHi ((s.reg rs).toInt * (s.reg rt).toInt)) (productLo ((s.reg rs).toInt * (s.reg rt).toInt)) s

/-- `multu rs, rt`: exact unsigned product (R170). -/
def execMultu (rs rt : RegIdx) (s : State) : Host.Outcome State Fault Refusal :=
  writeHiLo (productHi ((s.reg rs).toNat * (s.reg rt).toNat)) (productLo ((s.reg rs).toNat * (s.reg rt).toNat)) s

/-- `div rs, rt`: quotient rounded toward zero in LO, remainder with the dividend's sign in HI (R171). -/
def execDiv (rs rt : RegIdx) (s : State) : Host.Outcome State Fault Refusal :=
  if s.reg rt = 0 then divByZero s
  else
    writeHiLo (BitVec.ofInt 32 (Int.tmod (s.reg rs).toInt (s.reg rt).toInt))
      (BitVec.ofInt 32 (Int.tdiv (s.reg rs).toInt (s.reg rt).toInt)) s

/-- `divu rs, rt`: unsigned quotient in LO, remainder in HI (R172). -/
def execDivu (rs rt : RegIdx) (s : State) : Host.Outcome State Fault Refusal :=
  if s.reg rt = 0 then divByZero s
  else
    writeHiLo (BitVec.ofNat 32 ((s.reg rs).toNat % (s.reg rt).toNat))
      (BitVec.ofNat 32 ((s.reg rs).toNat / (s.reg rt).toNat)) s

/-- `mfhi rd` (R173). -/
def execMfhi (rd : RegIdx) (s : State) : Host.Outcome State Fault Refusal :=
  writeResult rd s.hi s

/-- `mflo rd` (R174). -/
def execMflo (rd : RegIdx) (s : State) : Host.Outcome State Fault Refusal :=
  writeResult rd s.lo s

/-- `mthi rs`: LO is not affected (R175). -/
def execMthi (rs : RegIdx) (s : State) : Host.Outcome State Fault Refusal :=
  writeHiLo (s.reg rs) s.lo s

/-- `mtlo rs`: HI is not affected (R176). -/
def execMtlo (rs : RegIdx) (s : State) : Host.Outcome State Fault Refusal :=
  writeHiLo s.hi (s.reg rs) s

end Sys2Proof.Machine
end

