-- ==== Sys2Proof/Machine/Branch.lean ====
section
/-! DEFINITION. The branch family (R130 to R138) and the call family (R120 to R122). There is no delay slot (R290). A bad target
is no fault here: the next fetch meets it (R27). -/

namespace Sys2Proof.Machine

/-! ## Conditional branches (R130) -/

/-- Redirect to the branch target if the condition holds, else advance (R26, R130). -/
def branchIf (taken : Bool) (imm : BitVec 16) (s : State) : Host.Outcome State Fault Refusal :=
  .next (if taken then s.redirect (branchTarget s imm) else s.advance)

/-- `beq rs, rt, label` (R131). -/
def execBeq (rs rt : RegIdx) (imm : BitVec 16) (s : State) : Host.Outcome State Fault Refusal :=
  branchIf (s.reg rs == s.reg rt) imm s

/-- `bne rs, rt, label` (R132). -/
def execBne (rs rt : RegIdx) (imm : BitVec 16) (s : State) : Host.Outcome State Fault Refusal :=
  branchIf (s.reg rs != s.reg rt) imm s

/-- `blez rs, label` (R133). -/
def execBlez (rs : RegIdx) (imm : BitVec 16) (s : State) : Host.Outcome State Fault Refusal :=
  branchIf (decide ((s.reg rs).toInt ≤ 0)) imm s

/-- `bgtz rs, label` (R134). -/
def execBgtz (rs : RegIdx) (imm : BitVec 16) (s : State) : Host.Outcome State Fault Refusal :=
  branchIf (decide (0 < (s.reg rs).toInt)) imm s

/-- `bltz rs, label` (R135). -/
def execBltz (rs : RegIdx) (imm : BitVec 16) (s : State) : Host.Outcome State Fault Refusal :=
  branchIf (decide ((s.reg rs).toInt < 0)) imm s

/-- `bgez rs, label` (R136). -/
def execBgez (rs : RegIdx) (imm : BitVec 16) (s : State) : Host.Outcome State Fault Refusal :=
  branchIf (decide (0 ≤ (s.reg rs).toInt)) imm s

/-! ## Jumps (R137, R138) -/

/-- `j label` (R137). -/
def execJ (target : BitVec 26) (s : State) : Host.Outcome State Fault Refusal :=
  .next (s.redirect (jumpTarget s target))

/-- `jr rs`: `pc` takes the register's value whatever it is (R138). -/
def execJr (rs : RegIdx) (s : State) : Host.Outcome State Fault Refusal :=
  .next (s.redirect (s.reg rs))

/-! ## Calls (R120) -/

/-- Write the link value `pc + 4` to the link register and redirect; the target was read before (R12, R120). -/
def callTo (link : RegIdx) (target : Word) (s : State) : Host.Outcome State Fault Refusal :=
  .next ((s.setReg link s.nextPc).redirect target)

/-- `jal label`: links in register 31 (R121). -/
def execJal (target : BitVec 26) (s : State) : Host.Outcome State Fault Refusal :=
  callTo 31 (jumpTarget s target) s

/-- `jalr rd, rs`: jumps to the old value of `rs` even when `rd = rs` (R122). -/
def execJalr (rd rs : RegIdx) (s : State) : Host.Outcome State Fault Refusal :=
  callTo rd (s.reg rs) s

end Sys2Proof.Machine
end

