-- ==== Sys2Proof/Machine/LoadStore.lean ====
section
/-! DEFINITION. The memory family (R190 to R198). Each instruction makes one data access, checked even when a load's destination
is register 0; on a fault nothing is written and `faultingAddress` is the effective address (R190, R221). -/

namespace Sys2Proof.Machine

/-- A load of the given width into `rt`, its value extended by `ext`, or the fault of its check (R58, R60, R190). -/
def loadInto (w : Width) (ext : Word → Word) (rt : RegIdx) (imm : BitVec 16) (rs : RegIdx) (s : State) :
    Host.Outcome State Fault Refusal :=
  match checkAccess (effectiveAddress s rs imm) w .load with
  | some k => .next (raiseFault k (effectiveAddress s rs imm) s)
  | none => .next (s.setReg rt (ext (s.mem.read w (effectiveAddress s rs imm).toNat))).advance

/-- A store of the low bytes of `rt`, or the fault of its check (R59, R61, R190). -/
def storeFrom (w : Width) (rt : RegIdx) (imm : BitVec 16) (rs : RegIdx) (s : State) :
    Host.Outcome State Fault Refusal :=
  match checkAccess (effectiveAddress s rs imm) w .store with
  | some k => .next (raiseFault k (effectiveAddress s rs imm) s)
  | none => .next (s.setMem (s.mem.write w (effectiveAddress s rs imm).toNat (s.reg rt))).advance

/-- `lb rt, imm(rs)`: load byte, sign-extended (R191). -/
def execLb (rt : RegIdx) (imm : BitVec 16) (rs : RegIdx) (s : State) : Host.Outcome State Fault Refusal :=
  loadInto .byte sext8OfLow rt imm rs s

/-- `lbu rt, imm(rs)`: load byte, zero-extended (R192). -/
def execLbu (rt : RegIdx) (imm : BitVec 16) (rs : RegIdx) (s : State) : Host.Outcome State Fault Refusal :=
  loadInto .byte id rt imm rs s

/-- `lh rt, imm(rs)`: load halfword, sign-extended (R193). -/
def execLh (rt : RegIdx) (imm : BitVec 16) (rs : RegIdx) (s : State) : Host.Outcome State Fault Refusal :=
  loadInto .half sext16OfLow rt imm rs s

/-- `lhu rt, imm(rs)`: load halfword, zero-extended (R194). -/
def execLhu (rt : RegIdx) (imm : BitVec 16) (rs : RegIdx) (s : State) : Host.Outcome State Fault Refusal :=
  loadInto .half id rt imm rs s

/-- `lw rt, imm(rs)`: load word (R195). -/
def execLw (rt : RegIdx) (imm : BitVec 16) (rs : RegIdx) (s : State) : Host.Outcome State Fault Refusal :=
  loadInto .word id rt imm rs s

/-- `sb rt, imm(rs)`: store byte (R196). -/
def execSb (rt : RegIdx) (imm : BitVec 16) (rs : RegIdx) (s : State) : Host.Outcome State Fault Refusal :=
  storeFrom .byte rt imm rs s

/-- `sh rt, imm(rs)`: store halfword (R197). -/
def execSh (rt : RegIdx) (imm : BitVec 16) (rs : RegIdx) (s : State) : Host.Outcome State Fault Refusal :=
  storeFrom .half rt imm rs s

/-- `sw rt, imm(rs)`: store word (R198). -/
def execSw (rt : RegIdx) (imm : BitVec 16) (rs : RegIdx) (s : State) : Host.Outcome State Fault Refusal :=
  storeFrom .word rt imm rs s

end Sys2Proof.Machine
end

