-- ==== Sys2Proof/Machine/System.lean ====
section
/-! DEFINITION. The system family (R210 to R213): each of the three ends the run invocation in its own step, with `pc` left at
the instruction. -/

namespace Sys2Proof.Machine

/-- Parameter SYSCALL_ENV at its default: every service but the exit raises Other at `pc` (R5, R211). -/
def syscallEnv (s : State) : Host.Outcome State Fault Refusal := .next (raiseFault .other s.pc s)

/-- `syscall`: with service number 10 in register 2 the program exit; any other service goes to SYSCALL_ENV (R211). -/
def execSyscall (s : State) : Host.Outcome State Fault Refusal :=
  if s.reg 2 = Config.exitService then .next (terminate .normalCompletion s) else syscallEnv s

/-- `break code`: raises Other at `pc`; the code is ignored (R212). -/
def execBreak (_code : BitVec 20) (s : State) : Host.Outcome State Fault Refusal :=
  .next (raiseFault .other s.pc s)

/-- The sentinel: cliff termination, in every mode (R213). -/
def execHalt (s : State) : Host.Outcome State Fault Refusal := .next (terminate .cliffTermination s)

end Sys2Proof.Machine
end

