-- ==== Sys2Proof/Machine/CoreStep.lean ====
section
/-! DEFINITION. The core step: steps (1) to (6) of the per-step algorithm, one instruction (R230). -/

namespace Sys2Proof.Machine

/-- `CoreStep()` (R230): fetch, decode, execute. A fetch or decode fault is recorded at `pc` (R63, R106, R221); the instruction's
own rule does the rest, the advance of `pc` among it. Defined only while RunState is Running. -/
def coreStep (s : State) : Host.Outcome State Fault Refusal :=
  if s.runState = .running then
    match fetch s with
    | .error k => .next (raiseFault k s.pc s)
    | .ok w =>
      match decodeWord w with
      | .error _ => .next (raiseFault .invalidInstruction s.pc s)
      | .ok i => exec i s
  else .fault .coreStepNotRunning

end Sys2Proof.Machine
end

