-- ==== Sys2Proof/Machine/RunController.lean ====
section
/-! DEFINITION. The run controller's part of a step: steps (7) to (9) of the per-step algorithm (R240, R245 to R249), and the
report of an ended invocation (R235, R236). It never changes a general register, HI, LO, memory or `pc` (R240). -/

namespace Sys2Proof.Machine

/-- Step (7), the count of completed core steps (R246). -/
def countStep (s : State) : State := { s with stepCount := s.stepCount + 1 }

/-- The requests that arrived while the step executed set the two flags; one pair is used up for each completed step (R248). -/
def takeSignals (s : State) : State :=
  match s.signals with
  | [] => s
  | g :: rest =>
    { s with pauseReq := s.pauseReq || g.pause, stopReq := s.stopReq || g.stop, signals := rest }

/-- The step limit is reached; a limit of at most 0 is none (R245, R246). -/
def limitReached (s : State) : Bool := decide (0 < s.stepLimit) && decide ((s.stepCount : Int) = s.stepLimit)

/-- In continuous mode, the address of the next instruction is in the breakpoint snapshot (R245, R247). -/
def breakpointHit (s : State) : Bool := decide (s.mode = .continuous) && decide (s.pc ∈ s.bpSnapshot)

/-- The tests at a step boundary, in their order: step limit, breakpoint, stop, pause (R245, R249). -/
def boundaryTests (s : State) : State :=
  if limitReached s then endInvocation .paused .stepLimit s
  else if breakpointHit s then endInvocation .paused .breakpoint s
  else if s.stopReq then endInvocation .terminated .stop s
  else if s.pauseReq then endInvocation .paused .pause s
  else s

/-- What follows a core step (R245): nothing where a fault or a termination ended the invocation inside it, else the count,
the requests and the tests. -/
def stepBoundary (s : State) : State :=
  if s.runState = .running then boundaryTests (takeSignals (countStep s)) else s

/-- The arguments of `onComplete(terminated, reason, fault)` (R235, R236). -/
structure Report where
  terminated : Bool
  reason     : Reason
  fault      : Option FaultRecord
  deriving DecidableEq, Repr

/-- The report of the invocation that ended last, read from the state (R32, R235): `terminated` exactly when RunState is
Terminated, a fault record exactly with reason fault. -/
def State.report (s : State) : Option Report :=
  match s.lastReason with
  | none => none
  | some r =>
    some { terminated := decide (s.runState = .terminated), reason := r,
           fault := if r = .fault then s.faultRecord else none }

/-- The report a step delivers: one when the invocation ends in it, none otherwise (R236). -/
def deliveredReport (before after : State) : Option Report :=
  if before.runState = .running ∧ after.runState ≠ .running then after.report else none

end Sys2Proof.Machine
end

