-- ==== Sys2Proof/Machine/Step.lean ====
section
/-! DEFINITION. One step of the machine: while Running, a core step and the run controller's boundary after it (R230, R245);
in any other run state the machine is not stepping and all state survives (R257). -/

namespace Sys2Proof.Machine

/-- One step: one iteration of the run loop (R245). -/
def step (s : State) : Host.Outcome State Fault Refusal :=
  if s.runState = .running then
    match coreStep s with
    | .next t => .next (stepBoundary t)
    | .fault f => .fault f
    | .refused r => .refused r
  else .next s

/-- The state with the opcode table's word stored at the program counter and a run in progress, so that the next step runs it.
It stands for the load of an image that holds the word and the run request that follows (R243, R280, R281; log entry 6). -/
def State.withFetchWord (s : State) (nbits w : Nat) : State :=
  { s with mem := s.mem.write .word s.pc.toNat (tableWord nbits w), runState := .running }

end Sys2Proof.Machine
end

