-- ==== Sys2Proof/Machine/HostPort.lean ====
section
/-! DEFINITION. The host interface (R295): load, the three run requests, the pause and stop requests, and the two inspection
ports. A call is made between steps; `step` is what the engine does by itself. -/

namespace Sys2Proof.Machine

/-- A program image (R280). -/
structure ProgramImage where
  entry : Word
  words : List (Word × Word)
  deriving DecidableEq, Repr

/-- The image of a machine at power-on (R282). -/
def ProgramImage.empty : ProgramImage := { entry := Config.entry, words := [] }

/-- The address lies in some region of MAP, whichever access kinds it admits (R280). -/
def mapped (a : Nat) : Bool := Config.memoryMap.any fun r => decide (r.lowest ≤ a) && decide (a ≤ r.highest)

/-- The image keeps R280: distinct word-aligned addresses inside MAP. The entry is not checked. -/
def ProgramImage.wellFormed (img : ProgramImage) : Bool :=
  decide (img.words.map Prod.fst).Nodup && img.words.all fun p => decide (p.1.toNat % 4 = 0) && mapped p.1.toNat

/-- The memory `load` leaves: every word absent, then the image's words present (R281). -/
def imageMemory (words : List (Word × Word)) : Memory :=
  words.foldl (fun m p => m.write .word p.1.toNat p.2) Memory.empty

/-- `load(image)` (R281): the reset state with the image's words and entry. The requests still to arrive from outside are no
state of the block and stay. -/
def loadImage (img : ProgramImage) (s : State) : State :=
  { State.reset with pc := img.entry, mem := imageMemory img.words, signals := s.signals }

/-- An address put into an ascending set without repeats (R244). -/
def insertBreakpoint : List Word → Word → List Word
  | [], a => [a]
  | b :: rest, a =>
    if a.toNat < b.toNat then a :: b :: rest else if a = b then b :: rest else b :: insertBreakpoint rest a

/-- The breakpoint set with the given members: ascending, without repeats (R244). -/
def breakpointSet (addresses : List Word) : List Word := addresses.foldl insertBreakpoint []

/-- The start of an admitted invocation (R245): the run loop's first lines. -/
def beginInvocation (m : RunMode) (breakpoints : List Word) (transient : Option Word) (limit : Int) (s : State) : State :=
  { s with runState := .running, stepCount := 0, bpSnapshot := breakpoints, transient := transient,
           mode := m, stepLimit := limit }

/-- `runContinuous(B, L)`, admitted (R243). -/
def startContinuous (breakpoints : List Word) (limit : Int) (s : State) : State :=
  beginInvocation .continuous (breakpointSet breakpoints) none limit s

/-- `runSingleStep`, admitted: one core step, no breakpoints (R243, R252). -/
def startSingleStep (s : State) : State := beginInvocation .single [] none 1 s

/-- The instruction at `pc` is a call, for step-over: a fetchable, decodable word of category call. The inspection raises
nothing (R250). -/
def atCall (s : State) : Bool :=
  match fetch s with
  | .error _ => false
  | .ok w =>
    match decodeWord w with
    | .error _ => false
    | .ok i => i.category == .call

/-- `runStepOver(B, L)`, admitted: at a call a continuous run with the transient breakpoint `pc + 4` merged into the set, else a
single step that ignores `B` and `L` (R243, R250, R251). -/
def startStepOver (breakpoints : List Word) (limit : Int) (s : State) : State :=
  if atCall s then
    beginInvocation .continuous (insertBreakpoint (breakpointSet breakpoints) s.nextPc) (some s.nextPc) limit s
  else startSingleStep s

/-- The register identifiers readRegister accepts: 0..31 and PC; HI and LO have none (R38). -/
inductive RegisterId where
  | gpr (r : RegIdx)
  | pc
  deriving DecidableEq, Repr

/-- The calls and signals of the host interface (R295). -/
inductive HostCall where
  | load (image : ProgramImage)
  | runContinuous (breakpoints : List Word) (limit : Int)
  | runSingleStep
  | runStepOver (breakpoints : List Word) (limit : Int)
  | requestPause
  | requestStop
  | readRegister (id : RegisterId)
  | readMemoryWord (address : Word)
  deriving DecidableEq, Repr

/-- The immediate result of a call. The report of a run comes with the step that ends it (R236). -/
inductive HostReply where
  /-- The call was admitted, or the request received. -/
  | accepted
  /-- A call made in the wrong run state: no fault, no state change (R237). -/
  | usageError
  /-- readRegister's value, or readMemoryWord's word if it is present. -/
  | value (w : Word)
  /-- readMemoryWord's marker for a word that is not present (R62). -/
  | absent
  deriving DecidableEq, Repr

/-- A run request is admitted while Idle or Paused, and is a usage error while Running or Terminated (R242). -/
def admitRun (start : State → State) (s : State) : HostReply × State :=
  match s.runState with
  | .idle => (.accepted, start s)
  | .paused => (.accepted, start s)
  | .running => (.usageError, s)
  | .terminated => (.usageError, s)

/-- The value behind a register identifier (R38). -/
def readRegisterPort (id : RegisterId) (s : State) : Word :=
  match id with
  | .gpr r => s.reg r
  | .pc => s.pc

/-- `readMemoryWord`: ignores access kinds and never faults (R62). -/
def readMemoryPort (a : Word) (s : State) : HostReply :=
  match s.mem.readWordOrAbsent a.toNat with
  | some w => .value w
  | none => .absent

/-- A host call (R295). Requests to pause or stop set their flag while Running and are ignored otherwise (R248); load and the
inspection ports are for when the machine is not Running (R38, R242). -/
def hostCall (c : HostCall) (s : State) : Host.Outcome (HostReply × State) Fault Refusal :=
  match c with
  | .load img =>
    if s.runState = .running then .next (.usageError, s)
    else if img.wellFormed then .next (.accepted, loadImage img s)
    else .refused .imageRejected
  | .runContinuous b l => .next (admitRun (startContinuous b l) s)
  | .runSingleStep => .next (admitRun startSingleStep s)
  | .runStepOver b l => .next (admitRun (startStepOver b l) s)
  | .requestPause => .next (.accepted, if s.runState = .running then { s with pauseReq := true } else s)
  | .requestStop => .next (.accepted, if s.runState = .running then { s with stopReq := true } else s)
  | .readRegister id =>
    if s.runState = .running then .refused .inspectionWhileRunning else .next (.value (readRegisterPort id s), s)
  | .readMemoryWord a =>
    if s.runState = .running then .refused .inspectionWhileRunning else .next (readMemoryPort a s, s)

end Sys2Proof.Machine
end

