-- ==== Sys2Proof/Machine/Session.lean ====
section
/-! DEFINITION. A run invocation as the host sees it: the steps from an admitted request to its one report (R236, R245, R297). -/

namespace Sys2Proof.Machine

/-- Steps until the invocation delivers its report, at most `fuel` of them: the report together with the machine state (R236).
It gives none where the fuel runs out first or nothing is running. -/
def runToReport : Nat → State → Option (Report × State)
  | 0, _ => none
  | fuel + 1, s =>
    match step s with
    | .next t =>
      match deliveredReport s t with
      | some r => some (r, t)
      | none => runToReport fuel t
    | .fault _ => none
    | .refused _ => none

/-- A run request and the invocation it starts; none where the call is not admitted (R242, R245). -/
def invoke (fuel : Nat) (c : HostCall) (s : State) : Option (Report × State) :=
  match hostCall c s with
  | .next (.accepted, t) => runToReport fuel t
  | .next (_, _) => none
  | .fault _ => none
  | .refused _ => none

end Sys2Proof.Machine
end

