-- ==== Sys2Proof/Safety.lean ====
section
/-! DEFINITION. What claims about runs are stated in: the address ranges of the default MAP as numbers, what it means that parts
of the state are kept, and the invariant of the machine. -/

namespace Sys2Proof.Machine

/-- `n` bytes from `a` lie in the text or the kernel text range, the two that admit fetch (R52). -/
def InFetchRange (a n : Nat) : Prop :=
  (0x00400000 ≤ a ∧ a + n ≤ 0x10000000) ∨ (0x80000000 ≤ a ∧ a + n ≤ 0x90000000)

/-- `n` bytes from `a` lie in the data or the kernel data range, the two that admit load and store (R52). -/
def InDataRange (a n : Nat) : Prop :=
  (0x10000000 ≤ a ∧ a + n ≤ 0x80000000) ∨ (0x90000000 ≤ a ∧ a + n ≤ 0xffff0000)

/-- The word at `pc` can be fetched (R63). -/
def Fetchable (s : State) : Prop := s.pc.toNat % 4 = 0 ∧ InFetchRange s.pc.toNat 4

/-- A load or store of `n` bytes at `a` passes its check (R54, R55). -/
def DataAccessible (a : Word) (n : Nat) : Prop := a.toNat % n = 0 ∧ InDataRange a.toNat n

/-- Every general register reads as before. -/
def KeepsRegs (s t : State) : Prop := ∀ r : RegIdx, t.reg r = s.reg r

/-- Every general register but `rd` reads as before. -/
def KeepsRegsBut (rd : RegIdx) (s t : State) : Prop := ∀ r : RegIdx, r ≠ rd → t.reg r = s.reg r

/-- HI and LO are as before. -/
def KeepsHiLo (s t : State) : Prop := t.hi = s.hi ∧ t.lo = s.lo

/-- Every byte of memory reads as before, and the same words are present. -/
def KeepsMemory (s t : State) : Prop :=
  (∀ a : Nat, t.mem.byte a = s.mem.byte a) ∧ (∀ a : Nat, t.mem.isPresent a = s.mem.isPresent a)

/-- The run state, the fault record, the last reason and the run controller's bookkeeping are as before (items 5 to 8 of R20,
with the model's own three fields). -/
def KeepsControl (s t : State) : Prop :=
  t.runState = s.runState ∧ t.faultRecord = s.faultRecord ∧ t.lastReason = s.lastReason ∧ t.stepCount = s.stepCount ∧
  t.pauseReq = s.pauseReq ∧ t.stopReq = s.stopReq ∧ t.bpSnapshot = s.bpSnapshot ∧ t.transient = s.transient ∧
  t.mode = s.mode ∧ t.stepLimit = s.stepLimit ∧ t.signals = s.signals

/-- The state of the hardware block (items 1 to 4 of R20) is as before. -/
def KeepsBlock (s t : State) : Prop := KeepsRegs s t ∧ KeepsHiLo s t ∧ KeepsMemory s t ∧ t.pc = s.pc

/-- The per-invocation bookkeeping is clear (R253). -/
def BookkeepingClear (s : State) : Prop :=
  s.stepCount = 0 ∧ s.pauseReq = false ∧ s.stopReq = false ∧ s.bpSnapshot = [] ∧ s.transient = none

/-- `t` is what `raise Fault(k, a)` leaves of `s` (R226): the record, the ended run, and the block as it was. -/
def TakesFault (k : FaultKind) (a : Word) (s t : State) : Prop :=
  (∃ f, t.faultRecord = some f ∧ f.kind = k ∧ f.faultingAddress = a) ∧
  t.runState = .terminated ∧ t.lastReason = some .fault ∧ BookkeepingClear t ∧ KeepsBlock s t ∧ t.signals = s.signals

/-- `t` is what `terminate(r)` leaves of `s` (R228). -/
def TakesTermination (r : Reason) (s t : State) : Prop :=
  t.runState = .terminated ∧ t.lastReason = some r ∧ t.faultRecord = s.faultRecord ∧ BookkeepingClear t ∧
  KeepsBlock s t ∧ t.signals = s.signals

/-! ## The readings of a value (R6, R7), written from the spec's own formulas -/

/-- `signed(v)`: `v` if `v < 2^31`, else `v - 2^32` (R6). -/
def signed32 (v : Word) : Int := if v.toNat < 2 ^ 31 then v.toNat else (v.toNat : Int) - 2 ^ 32

/-- The signed reading of a 16-bit value, which `sext_16` keeps (R7). -/
def signed16 (v : BitVec 16) : Int := if v.toNat < 2 ^ 15 then v.toNat else (v.toNat : Int) - 2 ^ 16

/-- The signed reading of a byte, which `sext_8` keeps (R7). -/
def signed8 (v : Byte) : Int := if v.toNat < 2 ^ 7 then v.toNat else (v.toNat : Int) - 2 ^ 8

/-- `sext_16(v)` as an unsigned number: `v` if bit 15 is 0, else `v + 2^32 - 2^16` (R7). -/
def sext16Value (v : BitVec 16) : Nat := if v.toNat < 2 ^ 15 then v.toNat else v.toNat + 2 ^ 32 - 2 ^ 16

/-! ## The shapes of an instruction's effect -/

/-- `t` is `s` with `v` written to general register `rd` (discarded if `rd` is 0) and `pc` advanced by 4; nothing else has
changed. -/
def Writes (rd : RegIdx) (v : Word) (s t : State) : Prop :=
  (t.reg rd = if rd = 0 then 0 else v) ∧ KeepsRegsBut rd s t ∧ t.pc = s.pc + 4 ∧
  KeepsHiLo s t ∧ KeepsMemory s t ∧ KeepsControl s t

/-- `t` is `s` with HI and LO written and `pc` advanced by 4; nothing else has changed. -/
def WritesHiLo (h l : Word) (s t : State) : Prop :=
  t.hi = h ∧ t.lo = l ∧ KeepsRegs s t ∧ t.pc = s.pc + 4 ∧ KeepsMemory s t ∧ KeepsControl s t

/-- `t` is `s` with `pc` at the given address; nothing else has changed. -/
def GoesTo (a : Word) (s t : State) : Prop :=
  t.pc = a ∧ KeepsRegs s t ∧ KeepsHiLo s t ∧ KeepsMemory s t ∧ KeepsControl s t

/-- `t` is `s` with the low `n` bytes of `v` stored from address `a` upward, low byte first, the word they lie in present, and
`pc` advanced by 4; nothing else has changed. -/
def Stores (n : Nat) (a : Nat) (v : Word) (s t : State) : Prop :=
  (∀ k, k < n → (t.mem.byte (a + k)).toNat = v.toNat / 256 ^ k % 256) ∧
  (∀ x, (x < a ∨ a + n ≤ x) → t.mem.byte x = s.mem.byte x) ∧
  (∀ x, t.mem.isPresent x = true ↔ x = a - a % 4 ∨ s.mem.isPresent x = true) ∧
  t.pc = s.pc + 4 ∧ KeepsRegs s t ∧ KeepsHiLo s t ∧ KeepsControl s t

/-- The number of the bytes from `a` upward, low byte first (R51, R64). -/
def bytesValue (m : Memory) (a n : Nat) : Nat :=
  match n with
  | 0 => 0
  | n + 1 => (m.byte a).toNat + 256 * bytesValue m (a + 1) n

/-- The target of a taken branch (R95, R130), as a number reduced modulo 2^32. -/
def branchAddress (s : State) (imm : BitVec 16) : Word := BitVec.ofInt 32 (s.pc.toNat + 4 + 4 * signed16 imm)

/-- The target of `j` and `jal` (R95): the upper four bits of `pc + 4` joined to `target` times 4. -/
def jumpAddress (s : State) (target : BitVec 26) : Word :=
  BitVec.ofNat 32 ((s.pc.toNat + 4) % 2 ^ 32 / 2 ^ 28 * 2 ^ 28 + target.toNat * 4)

/-! ## What an instruction may write -/

/-- The general register an instruction writes, if any (R120, R130, R140, R168, R190, R210). -/
def destination (i : Instr) : Option RegIdx :=
  match i with
  | .sll rd _ _ | .srl rd _ _ | .sra rd _ _ | .sllv rd _ _ | .srlv rd _ _ | .srav rd _ _ => some rd
  | .jalr rd _ | .mfhi rd | .mflo rd => some rd
  | .jal _ => some 31
  | .add rd _ _ | .addu rd _ _ | .sub rd _ _ | .subu rd _ _ | .and rd _ _ | .or rd _ _ | .xor rd _ _ => some rd
  | .nor rd _ _ | .slt rd _ _ | .sltu rd _ _ => some rd
  | .addi rt _ _ | .addiu rt _ _ | .slti rt _ _ | .sltiu rt _ _ | .andi rt _ _ | .ori rt _ _ | .xori rt _ _ => some rt
  | .lui rt _ | .lb rt _ _ | .lh rt _ _ | .lw rt _ _ | .lbu rt _ _ | .lhu rt _ _ => some rt
  | .halt | .syscall | .break_ _ | .jr _ | .mthi _ | .mtlo _ | .mult _ _ | .multu _ _ | .div _ _ | .divu _ _ => none
  | .bltz _ _ | .bgez _ _ | .j _ | .beq _ _ _ | .bne _ _ _ | .blez _ _ | .bgtz _ _ => none
  | .sb _ _ _ | .sh _ _ _ | .sw _ _ _ => none

/-- The instructions that write HI or LO (R28). -/
def writesHiLoPair (i : Instr) : Prop :=
  (∃ rs rt, i = .mult rs rt) ∨ (∃ rs rt, i = .multu rs rt) ∨ (∃ rs rt, i = .div rs rt) ∨ (∃ rs rt, i = .divu rs rt) ∨
  (∃ rs, i = .mthi rs) ∨ (∃ rs, i = .mtlo rs)

/-- The base register, displacement and width in bytes of a load (R191 to R195). -/
def loadAccess (i : Instr) (rs : RegIdx) (imm : BitVec 16) (n : Nat) : Prop :=
  (∃ rt, i = .lb rt imm rs ∧ n = 1) ∨ (∃ rt, i = .lbu rt imm rs ∧ n = 1) ∨ (∃ rt, i = .lh rt imm rs ∧ n = 2) ∨
  (∃ rt, i = .lhu rt imm rs ∧ n = 2) ∨ (∃ rt, i = .lw rt imm rs ∧ n = 4)

/-- The source register, base register, displacement and width in bytes of a store (R196 to R198). -/
def storeAccess (i : Instr) (rt rs : RegIdx) (imm : BitVec 16) (n : Nat) : Prop :=
  (i = .sb rt imm rs ∧ n = 1) ∨ (i = .sh rt imm rs ∧ n = 2) ∨ (i = .sw rt imm rs ∧ n = 4)

/-- The destination and the exact signed result of one of the three trapping instructions (R141, R143, R151). -/
def exactResult (i : Instr) (s : State) (d : RegIdx) (e : Int) : Prop :=
  (∃ rs rt, i = .add d rs rt ∧ e = signed32 (s.reg rs) + signed32 (s.reg rt)) ∨
  (∃ rs rt, i = .sub d rs rt ∧ e = signed32 (s.reg rs) - signed32 (s.reg rt)) ∨
  (∃ rs imm, i = .addi d rs imm ∧ e = signed32 (s.reg rs) + signed16 imm)

/-- The integer has no signed 32-bit reading (R141, R221). -/
def OutsideSigned (e : Int) : Prop := e < -2 ^ 31 ∨ 2 ^ 31 - 1 < e

/-- Two states agree on the hardware block (items 1 to 4 of R20). -/
def SameBlock (s t : State) : Prop :=
  (∀ r : RegIdx, s.reg r = t.reg r) ∧ s.pc = t.pc ∧ s.hi = t.hi ∧ s.lo = t.lo ∧ s.mem = t.mem

/-! ## The invariant -/

/-- A reason with which the program has ended (R235). -/
def Reason.ends (r : Reason) : Bool :=
  match r with
  | .normalCompletion | .cliffTermination | .fault | .stop => true
  | .breakpoint | .pause | .stepLimit => false

/-- What holds of the machine after every load, host call and step. -/
structure State.Inv (s : State) : Prop where
  /-- Memory is in its canonical form (R29, R51). -/
  memoryForm : s.mem.wf
  /-- Every present word lies in a region of MAP (R52, R55, R280). -/
  memoryMapped : ∀ a ∈ s.mem.present, InFetchRange a 4 ∨ InDataRange a 4
  /-- Register 0 holds zero (R23). -/
  zeroRegister : s.regs[0] = 0
  /-- The breakpoint snapshot is ascending without repeats (R244). -/
  snapshotAscending : s.bpSnapshot.Pairwise (fun a b => a.toNat < b.toNat)
  /-- The transient breakpoint is in the snapshot of a continuous run (R250, R251). -/
  transientListed : ∀ a, s.transient = some a → a ∈ s.bpSnapshot ∧ s.mode = .continuous
  /-- Nothing of an invocation is left when none is running (R253). -/
  clearWhenStopped : s.runState ≠ .running → BookkeepingClear s
  /-- A program that has not run has no last reason (R37). -/
  idleFresh : s.runState = .idle → s.lastReason = none
  /-- The program has ended exactly if the last reason is one that ends it (R235). -/
  endedByReason : s.runState = .terminated ↔ ∃ r, s.lastReason = some r ∧ r.ends = true
  /-- There is a fault record exactly after a fault (R31, R226). -/
  recordAfterFault : s.faultRecord.isSome = true ↔ s.lastReason = some .fault
  /-- A positive step limit is not yet reached while the invocation runs (R246). -/
  withinLimit : s.runState = .running → 0 < s.stepLimit → (s.stepCount : Int) < s.stepLimit
  /-- A single step runs with a limit of 1 and no breakpoints (R243, R252). -/
  singleMode : s.runState = .running → s.mode = .single → s.stepLimit = 1 ∧ s.bpSnapshot = []

end Sys2Proof.Machine
end

