-- ==== Sys2Proof/Certificates/Slice0/Obligations.lean ====
section
/-! DEFINITION. The statements for the provers. Each formalises rules of the spec; its docstring names them. -/

open Sys2Proof Sys2Proof.Machine

/-! ## Encoding -/

/-- Words written out from the encodings of the spec decode to the instructions they stand for, and words it calls invalid are
refused (95_test_vectors.md 2.6, R98, R104, R105). -/
def Obligations.SpecWordsDecode : Prop :=
  decodeWord 0x00000000 = .ok .halt ∧
  decodeWord 0x00000040 = .ok (.sll 0 0 1) ∧
  decodeWord 0x012a4020 = .ok (.add 8 9 10) ∧
  decodeWord 0x01494004 = .ok (.sllv 8 9 10) ∧
  decodeWord 0x012a001a = .ok (.div 9 10) ∧
  decodeWord 0x0100f809 = .ok (.jalr 31 8) ∧
  decodeWord 0x03e00008 = .ok (.jr 31) ∧
  decodeWord 0x0c100008 = .ok (.jal 0x0100008) ∧
  decodeWord 0x1509fffe = .ok (.bne 8 9 0xfffe) ∧
  decodeWord 0x05010002 = .ok (.bgez 8 0x0002) ∧
  decodeWord 0x2128ffff = .ok (.addi 8 9 0xffff) ∧
  decodeWord 0x3c081001 = .ok (.lui 8 0x1001) ∧
  decodeWord 0x8d280004 = .ok (.lw 8 0x0004 9) ∧
  decodeWord 0xafa8fff8 = .ok (.sw 8 0xfff8 29) ∧
  decodeWord 0x0000000c = .ok .syscall ∧
  decodeWord 0x000001cd = .ok (.break_ 7) ∧
  decodeWord 0x03e00408 = .error .invalidInstruction ∧
  decodeWord 0x012a4060 = .error .invalidInstruction ∧
  decodeWord 0x0000004c = .error .invalidInstruction ∧
  decodeWord 0xffffffff = .error .invalidInstruction

/-- Decoding an encoded instruction gives it back, for every instruction and every value of its operands (R91 to R105). -/
def Obligations.DecodeOfEncodeIsTheInstruction : Prop :=
  ∀ i : Instr, i.wellFormed = true → decodeWord (encode i) = .ok i

/-- Each word has one meaning: a word that decodes is the encoding of its instruction, so no bit of it is dropped, and the
instruction is well formed (R90, R98, R105). -/
def Obligations.EncodeOfDecodeIsTheWord : Prop :=
  ∀ (w : Word) (i : Instr), decodeWord w = .ok i → encode i = w ∧ i.wellFormed = true

/-- The decoder agrees with the match and mask columns of R104: a non-zero word that fits a row decodes to an instruction of that
row's mnemonic and category, and one that fits no row is refused (R97, R103, R104). -/
def Obligations.DecoderFollowsMatchAndMask : Prop :=
  ∀ w : Word, w ≠ 0 →
    (∀ r ∈ opcodeRows, w &&& r.mask = r.mtch →
      ∃ i, decodeWord w = .ok i ∧ i.mnemonic = r.mnemonic ∧ i.category = r.category) ∧
    ((∀ r ∈ opcodeRows, w &&& r.mask ≠ r.mtch) → decodeWord w = .error .invalidInstruction)

/-- No word other than zero matches two rows of the table, the sentinel's among them (R97). -/
def Obligations.NoTwoRowsMatchOneWord : Prop :=
  ∀ w : Word, w ≠ 0 → ∀ r ∈ haltRow :: opcodeRows, ∀ q ∈ haltRow :: opcodeRows,
    w &&& r.mask = r.mtch → w &&& q.mask = q.mtch → r = q

/-- Every word that is not zero and matches no row raises InvalidInstruction at `pc` when it is fetched, before any state
changes; the words the rule lists by their major opcode, function code or sub-opcode are among them (R106). -/
def Obligations.UnmatchedWordRaisesInvalidInstruction : Prop :=
  (∀ s : State, s.runState = .running → Fetchable s → s.mem.word s.pc.toNat ≠ 0 →
    (∀ r ∈ opcodeRows, s.mem.word s.pc.toNat &&& r.mask ≠ r.mtch) →
    ∃ t, step s = .next t ∧ TakesFault .invalidInstruction s.pc s t) ∧
  (∀ w : Word,
    (fieldOp w).toNat ∈ [0x10, 0x11, 0x12, 0x13, 0x1c, 0x22, 0x26, 0x2a, 0x2e, 0x30, 0x38, 0x31, 0x35, 0x39, 0x3d] ∨
    (fieldOp w).toNat = 0 ∧ ((fieldFunct w).toNat ∈ [0x0a, 0x0b, 0x0f] ∨
      0x30 ≤ (fieldFunct w).toNat ∧ (fieldFunct w).toNat ≤ 0x36) ∨
    (fieldOp w).toNat = 1 ∧ ((bitsRt w).toNat ∈ [0x10, 0x11] ∨ 0x08 ≤ (bitsRt w).toNat ∧ (bitsRt w).toNat ≤ 0x0e) →
    w ≠ 0 ∧ ∀ r ∈ opcodeRows, w &&& r.mask ≠ r.mtch)

/-! ## Reset and load -/

/-- The reset state is the table of R37 with the image's entry at its default. -/
def Obligations.ResetLeavesTheTableOfValues : Prop :=
  State.reset.reg 0 = 0 ∧ State.reset.reg 28 = 0x10008000 ∧ State.reset.reg 29 = 0x7fffeffc ∧
  (∀ r : RegIdx, r ≠ 28 → r ≠ 29 → State.reset.reg r = 0) ∧
  State.reset.pc = 0x00400000 ∧ State.reset.hi = 0 ∧ State.reset.lo = 0 ∧
  (∀ a : Word, State.reset.mem.readWordOrAbsent a.toNat = none) ∧
  State.reset.runState = .idle ∧ State.reset.faultRecord = none ∧ State.reset.lastReason = none ∧
  State.reset.stepCount = 0 ∧ State.reset.pauseReq = false ∧ State.reset.stopReq = false ∧
  State.reset.bpSnapshot = [] ∧ State.reset.transient = none

/-- `load` of an image that keeps R280, made while no run is in progress, leaves the reset state with the image's words, and only
them, present, and `pc` at the image's entry; at power-on the image is empty (R37, R280, R281, R282). That the requests still to
come from outside stay is the model's choice (log entry 5). -/
def Obligations.LoadResetsTheMachine : Prop :=
  ∀ (s : State) (img : ProgramImage), s.runState ≠ .running → img.wellFormed = true →
    ∃ t, hostCall (.load img) s = .next (.accepted, t) ∧
      (∀ r, t.reg r = State.reset.reg r) ∧ t.hi = 0 ∧ t.lo = 0 ∧ t.pc = img.entry ∧
      (∀ p ∈ img.words, t.mem.readWordOrAbsent p.1.toNat = some p.2) ∧
      (∀ a : Word, a ∉ img.words.map Prod.fst → t.mem.readWordOrAbsent a.toNat = none) ∧
      t.faultRecord = none ∧ t.lastReason = none ∧ BookkeepingClear t ∧ t.runState = .idle ∧ t.signals = s.signals ∧
      (img = ProgramImage.empty → t = { State.reset with signals := s.signals })

/-! ## The invariant -/

/-- The reset state meets the invariant of the machine. -/
def Obligations.ResetMeetsTheInvariant : Prop := State.reset.Inv

/-- Every step keeps the invariant: memory stays canonical and inside MAP, register 0 stays zero, the breakpoint snapshot stays
ascending, the bookkeeping is clear when nothing runs, and run state, last reason and fault record agree (R23, R29, R30, R31,
R52, R235, R244, R246, R253). The clauses on the running invocation's mode and limit are about the model's own two fields (log
entry 4). -/
def Obligations.StepKeepsTheInvariant : Prop :=
  ∀ s t : State, s.Inv → step s = .next t → t.Inv

/-- Every host call keeps the invariant (R242, R243, R248, R280, R281). -/
def Obligations.HostCallKeepsTheInvariant : Prop :=
  ∀ (c : HostCall) (s t : State) (reply : HostReply), s.Inv → hostCall c s = .next (reply, t) → t.Inv

/-! ## Memory -/

/-- Two memories in the model's canonical form that read alike at every byte and have the same words present are equal data. This
is about the model's own representation of the partial map, the pair of lists of log entry 2 (DEDUCED); no rule of the spec speaks
of a canonical form or of equal data. -/
def Obligations.EqualMemoriesAreEqualData : Prop :=
  ∀ m n : Memory, m.wf → n.wf → (∀ a, m.byte a = n.byte a) → (∀ a, m.isPresent a = n.isPresent a) → m = n

/-- The effective address is base plus signed displacement modulo 2^32 (R190). -/
def Obligations.EffectiveAddressWraps : Prop :=
  ∀ (s : State) (rs : RegIdx) (imm : BitVec 16),
    ((effectiveAddress s rs imm).toNat : Int) = (((s.reg rs).toNat : Int) + signed16 imm) % 2 ^ 32

/-- A word written is the word read back, at every address that admits both accesses, whatever was there before (R67). -/
def Obligations.WordRoundTrip : Prop :=
  ∀ (m : Memory) (a v : Word), m.wf →
    checkAccess a .word .store = none → checkAccess a .word .load = none →
    (m.write .word a.toNat v).read .word a.toNat = v ∧
    (m.write .word a.toNat v).readWordOrAbsent a.toNat = some v

/-- A narrow write replaces its bits of the enclosing word and leaves the others, which are zero if the word was absent; the word
becomes present (R61). -/
def Obligations.NarrowWriteReplacesItsBits : Prop :=
  ∀ (m : Memory) (w : Width) (a : Nat) (v : Word), m.wf → a % w.bytes = 0 → a < 2 ^ 32 → w ≠ .word →
    (∀ b, b < 32 → ((m.write w a v).word (a - a % 4)).getLsbD b =
      if 8 * (a % 4) ≤ b ∧ b < 8 * (a % 4) + 8 * w.bytes then v.getLsbD (b - 8 * (a % 4))
      else (m.word (a - a % 4)).getLsbD b) ∧
    (m.write w a v).isPresent (a - a % 4) = true ∧
    (m.isPresent (a - a % 4) = false → m.word (a - a % 4) = 0)

/-- A read of any width composes the bytes low byte first (R60, R64). -/
def Obligations.ReadsAreLittleEndian : Prop :=
  ∀ (m : Memory) (w : Width) (a : Nat), (m.read w a).toNat = bytesValue m a w.bytes

/-- A load or a fetch at an absent word obtains the bytes of zero and leaves the word absent (R57). -/
def Obligations.AbsentWordReadsAsZero : Prop :=
  ∀ s : State, s.mem.wf →
    (∀ (i : Instr) (rs rt : RegIdx) (imm : BitVec 16) (n : Nat), loadAccess i rs imm n → destination i = some rt →
      DataAccessible (effectiveAddress s rs imm) n →
      s.mem.isPresent ((effectiveAddress s rs imm).toNat - (effectiveAddress s rs imm).toNat % 4) = false →
      ∃ t, exec i s = .next t ∧ t.reg rt = 0 ∧ KeepsMemory s t) ∧
    (Fetchable s → s.mem.isPresent s.pc.toNat = false → fetch s = .ok 0)

/-- readMemoryWord gives the word if it is present and Absent otherwise, at a misaligned or an unmapped address too, changes no
state and never faults (R62). -/
def Obligations.ReadMemoryWordTellsAbsentFromZero : Prop :=
  ∀ (s : State) (a : Word), s.Inv → s.runState ≠ .running →
    (s.mem.isPresent a.toNat = true → hostCall (.readMemoryWord a) s = .next (.value (s.mem.word a.toNat), s)) ∧
    (s.mem.isPresent a.toNat = false → hostCall (.readMemoryWord a) s = .next (.absent, s)) ∧
    (a.toNat % 4 ≠ 0 → hostCall (.readMemoryWord a) s = .next (.absent, s)) ∧
    (¬ InFetchRange a.toNat 4 → ¬ InDataRange a.toNat 4 → hostCall (.readMemoryWord a) s = .next (.absent, s))

/-- A misaligned word or halfword access, and a misaligned fetch, always fail with AddressMisaligned at the address itself, mapped
or not, and are never rounded down; the address is the wrapped sum (R56). -/
def Obligations.MisalignedAccessNeverRepaired : Prop :=
  ∀ s : State,
    (∀ (i : Instr) (rs rt : RegIdx) (imm : BitVec 16) (n : Nat), loadAccess i rs imm n ∨ storeAccess i rt rs imm n →
      (((s.reg rs).toNat : Int) + signed16 imm) % 2 ^ 32 % n ≠ 0 →
      ∃ t a, exec i s = .next t ∧ TakesFault .addressMisaligned a s t ∧
        (a.toNat : Int) = (((s.reg rs).toNat : Int) + signed16 imm) % 2 ^ 32) ∧
    (s.runState = .running → s.pc.toNat % 4 ≠ 0 →
      ∃ t, step s = .next t ∧ TakesFault .addressMisaligned s.pc s t)

/-- No step changes a byte of the text regions or the presence of a word there: a program cannot modify its instructions (R53,
R72). -/
def Obligations.StepNeverChangesText : Prop :=
  ∀ s t : State, s.mem.wf → step s = .next t →
    (∀ a, InFetchRange a 1 → t.mem.byte a = s.mem.byte a) ∧
    (∀ a, InFetchRange a 4 → t.mem.isPresent a = s.mem.isPresent a)

/-! ## Arithmetic -/

/-- `addu`, `subu`, `addiu` compute modulo 2^32, never fault and change nothing else (R142, R144, R152). -/
def Obligations.WrappingArithmeticResults : Prop :=
  ∀ (s : State) (rd rs rt : RegIdx) (imm : BitVec 16),
    (∃ t, exec (.addu rd rs rt) s = .next t ∧
      Writes rd (BitVec.ofNat 32 (((s.reg rs).toNat + (s.reg rt).toNat) % 2 ^ 32)) s t) ∧
    (∃ t, exec (.subu rd rs rt) s = .next t ∧
      Writes rd (BitVec.ofNat 32 (((s.reg rs).toNat + 2 ^ 32 - (s.reg rt).toNat) % 2 ^ 32)) s t) ∧
    (∃ t, exec (.addiu rt rs imm) s = .next t ∧
      Writes rt (BitVec.ofInt 32 ((s.reg rs).toNat + signed16 imm)) s t)

/-- `add`, `sub`, `addi` write the exact signed result if it fits 32 bits and otherwise raise ArithmeticOverflow at `pc` with
nothing written, whatever the destination (R141, R143, R151). -/
def Obligations.TrappingArithmeticResults : Prop :=
  ∀ (s : State) (rd rs rt : RegIdx) (imm : BitVec 16),
    (∀ (i : Instr) (d : RegIdx) (e : Int),
      ((i = .add rd rs rt ∧ d = rd ∧ e = signed32 (s.reg rs) + signed32 (s.reg rt)) ∨
       (i = .sub rd rs rt ∧ d = rd ∧ e = signed32 (s.reg rs) - signed32 (s.reg rt)) ∨
       (i = .addi rt rs imm ∧ d = rt ∧ e = signed32 (s.reg rs) + signed16 imm)) →
      (-2 ^ 31 ≤ e → e ≤ 2 ^ 31 - 1 → ∃ t, exec i s = .next t ∧ Writes d (BitVec.ofInt 32 e) s t) ∧
      (e < -2 ^ 31 ∨ 2 ^ 31 - 1 < e → ∃ t, exec i s = .next t ∧ TakesFault .arithmeticOverflow s.pc s t))

/-- Signed overflow read off the sign bits: `add` and `addi` fault exactly when both operands have one sign bit and the 32-bit sum
the other; `sub` exactly when the operands' sign bits differ and the difference's differs from the minuend's (R141, R143, R151). -/
def Obligations.OverflowIsReadOffTheSignBits : Prop :=
  ∀ (s : State) (rd rs rt : RegIdx) (imm : BitVec 16), s.runState = .running →
    ((∃ t, exec (.add rd rs rt) s = .next t ∧ t.lastReason = some .fault ∧ t.runState = .terminated) ↔
      ((s.reg rs).msb = (s.reg rt).msb ∧ (s.reg rs + s.reg rt).msb ≠ (s.reg rs).msb)) ∧
    ((∃ t, exec (.addi rt rs imm) s = .next t ∧ t.lastReason = some .fault ∧ t.runState = .terminated) ↔
      ((s.reg rs).msb = imm.msb ∧ (s.reg rs + imm.signExtend 32).msb ≠ (s.reg rs).msb)) ∧
    ((∃ t, exec (.sub rd rs rt) s = .next t ∧ t.lastReason = some .fault ∧ t.runState = .terminated) ↔
      ((s.reg rs).msb ≠ (s.reg rt).msb ∧ (s.reg rs - s.reg rt).msb ≠ (s.reg rs).msb))

/-- The bitwise instructions and `lui`, bit by bit; the logical immediate is zero-extended (R145 to R148, R155 to R158). -/
def Obligations.BitwiseResults : Prop :=
  ∀ (s : State) (rd rs rt : RegIdx) (imm : BitVec 16) (i : Instr) (d : RegIdx) (f : Nat → Bool),
    ((i = .and rd rs rt ∧ d = rd ∧ f = fun k => (s.reg rs).getLsbD k && (s.reg rt).getLsbD k) ∨
     (i = .or rd rs rt ∧ d = rd ∧ f = fun k => (s.reg rs).getLsbD k || (s.reg rt).getLsbD k) ∨
     (i = .xor rd rs rt ∧ d = rd ∧ f = fun k => (s.reg rs).getLsbD k != (s.reg rt).getLsbD k) ∨
     (i = .nor rd rs rt ∧ d = rd ∧ f = fun k => !((s.reg rs).getLsbD k || (s.reg rt).getLsbD k)) ∨
     (i = .andi rt rs imm ∧ d = rt ∧ f = fun k => (s.reg rs).getLsbD k && imm.getLsbD k) ∨
     (i = .ori rt rs imm ∧ d = rt ∧ f = fun k => (s.reg rs).getLsbD k || imm.getLsbD k) ∨
     (i = .xori rt rs imm ∧ d = rt ∧ f = fun k => (s.reg rs).getLsbD k != imm.getLsbD k) ∨
     (i = .lui rt imm ∧ d = rt ∧ f = fun k => decide (16 ≤ k) && imm.getLsbD (k - 16))) →
    ∃ t v, exec i s = .next t ∧ Writes d v s t ∧ ∀ k, k < 32 → v.getLsbD k = f k

/-- The comparisons write 1 or 0: `slt` and `slti` compare signed readings, `sltu` and `sltiu` unsigned ones, and `sltiu`'s
immediate is sign-extended first (R149, R150, R153, R154). -/
def Obligations.ComparisonResults : Prop :=
  ∀ (s : State) (rd rs rt : RegIdx) (imm : BitVec 16),
    (∃ t, exec (.slt rd rs rt) s = .next t ∧
      Writes rd (if signed32 (s.reg rs) < signed32 (s.reg rt) then 1 else 0) s t) ∧
    (∃ t, exec (.sltu rd rs rt) s = .next t ∧
      Writes rd (if (s.reg rs).toNat < (s.reg rt).toNat then 1 else 0) s t) ∧
    (∃ t, exec (.slti rt rs imm) s = .next t ∧
      Writes rt (if signed32 (s.reg rs) < signed16 imm then 1 else 0) s t) ∧
    (∃ t, exec (.sltiu rt rs imm) s = .next t ∧
      Writes rt (if (s.reg rs).toNat < sext16Value imm then 1 else 0) s t)

/-- The shifts as multiplication and division by a power of two; the variable shifts take the low five bits of `x[rs]`, and the
arithmetic ones round toward minus infinity (R160 to R166). -/
def Obligations.ShiftResults : Prop :=
  ∀ (s : State) (rd rt rs : RegIdx) (sa : BitVec 5) (i : Instr) (v : Word),
    ((i = .sll rd rt sa ∧ v = BitVec.ofNat 32 ((s.reg rt).toNat * 2 ^ sa.toNat)) ∨
     (i = .srl rd rt sa ∧ v = BitVec.ofNat 32 ((s.reg rt).toNat / 2 ^ sa.toNat)) ∨
     (i = .sra rd rt sa ∧ v = BitVec.ofInt 32 (signed32 (s.reg rt) / 2 ^ sa.toNat)) ∨
     (i = .sllv rd rt rs ∧ v = BitVec.ofNat 32 ((s.reg rt).toNat * 2 ^ ((s.reg rs).toNat % 32))) ∨
     (i = .srlv rd rt rs ∧ v = BitVec.ofNat 32 ((s.reg rt).toNat / 2 ^ ((s.reg rs).toNat % 32))) ∨
     (i = .srav rd rt rs ∧ v = BitVec.ofInt 32 (signed32 (s.reg rt) / 2 ^ ((s.reg rs).toNat % 32)))) →
    ∃ t, exec i s = .next t ∧ Writes rd v s t

/-- `mult` and `multu` leave the exact product in HI and LO, modulo 2^64 for the signed one, and write nothing else (R168 to
R170). -/
def Obligations.MultiplyResults : Prop :=
  ∀ (s : State) (rs rt : RegIdx),
    (∃ t h l, exec (.mult rs rt) s = .next t ∧ WritesHiLo h l s t ∧
      ((h.toNat : Int) * 2 ^ 32 + l.toNat) = (signed32 (s.reg rs) * signed32 (s.reg rt)) % 2 ^ 64) ∧
    (∃ t h l, exec (.multu rs rt) s = .next t ∧ WritesHiLo h l s t ∧
      h.toNat * 2 ^ 32 + l.toNat = (s.reg rs).toNat * (s.reg rt).toNat)

/-- `div` and `divu` leave quotient in LO and remainder in HI; a zero divisor leaves both as they were; nothing faults. The signed
quotient `q` and remainder `r` are pinned by `n = q*d + r`, `|r| < |d|` and `r` having the sign of `n` (R171, R172). -/
def Obligations.DivideResults : Prop :=
  ∀ (s : State) (rs rt : RegIdx),
    (s.reg rt = 0 → (∃ t, exec (.div rs rt) s = .next t ∧ WritesHiLo s.hi s.lo s t) ∧
      (∃ t, exec (.divu rs rt) s = .next t ∧ WritesHiLo s.hi s.lo s t)) ∧
    (s.reg rt ≠ 0 →
      (∃ t q r, exec (.div rs rt) s = .next t ∧ WritesHiLo (BitVec.ofInt 32 r) (BitVec.ofInt 32 q) s t ∧
        signed32 (s.reg rs) = q * signed32 (s.reg rt) + r ∧ r.natAbs < (signed32 (s.reg rt)).natAbs ∧
        (0 ≤ signed32 (s.reg rs) → 0 ≤ r) ∧ (signed32 (s.reg rs) ≤ 0 → r ≤ 0)) ∧
      (∃ t q r, exec (.divu rs rt) s = .next t ∧ WritesHiLo r q s t ∧
        (s.reg rs).toNat = q.toNat * (s.reg rt).toNat + r.toNat ∧ r.toNat < (s.reg rt).toNat))

/-- `mfhi` and `mflo` read the pair, `mthi` and `mtlo` write one half and leave the other (R173 to R176). -/
def Obligations.HiLoMoveResults : Prop :=
  ∀ (s : State) (rd rs : RegIdx),
    (∃ t, exec (.mfhi rd) s = .next t ∧ Writes rd s.hi s t) ∧
    (∃ t, exec (.mflo rd) s = .next t ∧ Writes rd s.lo s t) ∧
    (∃ t, exec (.mthi rs) s = .next t ∧ WritesHiLo (s.reg rs) s.lo s t) ∧
    (∃ t, exec (.mtlo rs) s = .next t ∧ WritesHiLo s.hi (s.reg rs) s t)

/-- An instruction whose destination is register 0 keeps every other effect: an overflow in either direction and a failed check of
any load still fault, `jalr` still jumps as `jr` does, and every other instruction, and every access that passes its check, changes
`pc` alone (R23). That it is still counted as one step is BoundaryTestsInOrder, which holds of every completed core step. -/
def Obligations.ZeroDestinationKeepsOtherEffects : Prop :=
  ∀ (s : State) (i : Instr), destination i = some 0 →
    (∀ e, exactResult i s 0 e → OutsideSigned e →
      ∃ t, exec i s = .next t ∧ TakesFault .arithmeticOverflow s.pc s t) ∧
    (∀ rs imm n, loadAccess i rs imm n →
      ((effectiveAddress s rs imm).toNat % n ≠ 0 →
        ∃ t, exec i s = .next t ∧ TakesFault .addressMisaligned (effectiveAddress s rs imm) s t) ∧
      ((effectiveAddress s rs imm).toNat % n = 0 → ¬ InDataRange (effectiveAddress s rs imm).toNat n →
        ∃ t, exec i s = .next t ∧ TakesFault .addressOutOfRange (effectiveAddress s rs imm) s t)) ∧
    (∀ rs, i = .jalr 0 rs → exec i s = exec (.jr rs) s) ∧
    (i.category ≠ .call → (∀ e, exactResult i s 0 e → ¬ OutsideSigned e) →
      (∀ rs imm n, loadAccess i rs imm n → DataAccessible (effectiveAddress s rs imm) n) →
      exec i s = .next { s with pc := s.pc + 4 })

/-! ## Branches, jumps and calls -/

/-- A conditional branch goes to its target if its condition holds and to `pc + 4` otherwise; it writes nothing else and never
faults (R130 to R136). -/
def Obligations.ConditionalBranchResults : Prop :=
  ∀ (s : State) (rs rt : RegIdx) (imm : BitVec 16) (i : Instr) (taken : Prop) [Decidable taken],
    ((i = .beq rs rt imm ∧ (taken ↔ s.reg rs = s.reg rt)) ∨
     (i = .bne rs rt imm ∧ (taken ↔ s.reg rs ≠ s.reg rt)) ∨
     (i = .blez rs imm ∧ (taken ↔ signed32 (s.reg rs) ≤ 0)) ∨
     (i = .bgtz rs imm ∧ (taken ↔ signed32 (s.reg rs) > 0)) ∨
     (i = .bltz rs imm ∧ (taken ↔ signed32 (s.reg rs) < 0)) ∨
     (i = .bgez rs imm ∧ (taken ↔ signed32 (s.reg rs) ≥ 0))) →
    ∃ t, exec i s = .next t ∧ GoesTo (if taken then branchAddress s imm else s.pc + 4) s t

/-- `j` goes to its target in the 256 MiB block of `pc + 4`, `jr` to the register's value whatever it is; neither writes anything
else or faults (R137, R138). -/
def Obligations.JumpResults : Prop :=
  ∀ (s : State) (rs : RegIdx) (target : BitVec 26),
    (∃ t, exec (.j target) s = .next t ∧ GoesTo (jumpAddress s target) s t) ∧
    (∃ t, exec (.jr rs) s = .next t ∧ GoesTo (s.reg rs) s t)

/-- A call writes `pc + 4` to its link register and goes to its target, read before the link is written; it writes nothing else
and does not fault (R120 to R122). -/
def Obligations.CallResults : Prop :=
  ∀ (s : State) (rd rs : RegIdx) (target : BitVec 26),
    (∃ t, exec (.jal target) s = .next t ∧ t.pc = jumpAddress s target ∧ t.reg 31 = s.pc + 4 ∧ KeepsRegsBut 31 s t ∧
      KeepsHiLo s t ∧ KeepsMemory s t ∧ KeepsControl s t) ∧
    (∃ t, exec (.jalr rd rs) s = .next t ∧ t.pc = s.reg rs ∧ t.reg rd = (if rd = 0 then 0 else s.pc + 4) ∧
      KeepsRegsBut rd s t ∧ KeepsHiLo s t ∧ KeepsMemory s t ∧ KeepsControl s t)

/-! ## Loads and stores -/

/-- Each load, at an address that passes its check, writes the bytes there, low byte first, sign- or zero-extended, and nothing
else (R190 to R195). -/
def Obligations.LoadResults : Prop :=
  ∀ (s : State) (rt rs : RegIdx) (imm : BitVec 16) (i : Instr) (n : Nat) (v : Word),
    ((i = .lb rt imm rs ∧ n = 1 ∧
        v = BitVec.ofInt 32 (signed8 (BitVec.ofNat 8 (bytesValue s.mem (effectiveAddress s rs imm).toNat 1)))) ∨
     (i = .lbu rt imm rs ∧ n = 1 ∧ v = BitVec.ofNat 32 (bytesValue s.mem (effectiveAddress s rs imm).toNat 1)) ∨
     (i = .lh rt imm rs ∧ n = 2 ∧
        v = BitVec.ofInt 32 (signed16 (BitVec.ofNat 16 (bytesValue s.mem (effectiveAddress s rs imm).toNat 2)))) ∨
     (i = .lhu rt imm rs ∧ n = 2 ∧ v = BitVec.ofNat 32 (bytesValue s.mem (effectiveAddress s rs imm).toNat 2)) ∨
     (i = .lw rt imm rs ∧ n = 4 ∧ v = BitVec.ofNat 32 (bytesValue s.mem (effectiveAddress s rs imm).toNat 4))) →
    DataAccessible (effectiveAddress s rs imm) n →
    ∃ t, exec i s = .next t ∧ Writes rt v s t

/-- Each store, at an address that passes its check, stores the low bytes of its source from the effective address upward, makes
the word present, and changes nothing else (R190, R196 to R198). -/
def Obligations.StoreResults : Prop :=
  ∀ (s : State) (rt rs : RegIdx) (imm : BitVec 16) (i : Instr) (n : Nat), s.mem.wf → storeAccess i rt rs imm n →
    DataAccessible (effectiveAddress s rs imm) n →
    ∃ t, exec i s = .next t ∧ Stores n (effectiveAddress s rs imm).toNat (s.reg rt) s t

/-- A load or store whose check fails takes the fault with the effective address recorded, alignment before range, and writes
nothing (R54, R55, R190, R221). -/
def Obligations.DataAccessFaults : Prop :=
  ∀ (s : State) (rt rs : RegIdx) (imm : BitVec 16) (i : Instr) (n : Nat),
    loadAccess i rs imm n ∨ storeAccess i rt rs imm n →
    ((effectiveAddress s rs imm).toNat % n ≠ 0 →
      ∃ t, exec i s = .next t ∧ TakesFault .addressMisaligned (effectiveAddress s rs imm) s t) ∧
    ((effectiveAddress s rs imm).toNat % n = 0 → ¬ InDataRange (effectiveAddress s rs imm).toNat n →
      ∃ t, exec i s = .next t ∧ TakesFault .addressOutOfRange (effectiveAddress s rs imm) s t)

/-- `sw` then `lw` with the same base register and displacement gives the stored value (R67, R195, R198). -/
def Obligations.StoreWordThenLoadWord : Prop :=
  ∀ (s t : State) (rt rd rs : RegIdx) (imm : BitVec 16), s.mem.wf → DataAccessible (effectiveAddress s rs imm) 4 →
    exec (.sw rt imm rs) s = .next t →
    ∃ u, exec (.lw rd imm rs) t = .next u ∧ u.reg rd = (if rd = 0 then 0 else s.reg rt) ∧ u.pc = s.pc + 8

/-! ## System instructions and faults -/

/-- `syscall` is the one word 0x0000000c; with all 32 bits of `$v0` equal to 10 it ends the run with normal completion, and with
any other service it raises Other at `pc` (R211). -/
def Obligations.SyscallExitsOrRaisesOther : Prop :=
  (∀ w : Word, decodeWord w = .ok .syscall ↔ w = 0x0000000c) ∧
  ∀ s : State,
    (s.reg 2 = 10 → ∃ t, exec .syscall s = .next t ∧ TakesTermination .normalCompletion s t ∧
      t.report = some { terminated := true, reason := .normalCompletion, fault := none }) ∧
    (s.reg 2 ≠ 10 → ∃ t, exec .syscall s = .next t ∧ TakesFault .other s.pc s t)

/-- Every word of the `break` pattern is `break`, which always raises Other at `pc`, whatever its code (R212). -/
def Obligations.BreakRaisesOther : Prop :=
  (∀ w : Word, w &&& 0xfc00003f#32 = 0x0000000d#32 ↔ ∃ code, decodeWord w = .ok (.break_ code)) ∧
  ∀ (s : State) (code : BitVec 20), ∃ t, exec (.break_ code) s = .next t ∧ TakesFault .other s.pc s t

/-- The all-zero word, and no other, is the sentinel; it ends the run with cliff termination in every mode, with `pc` and all else
unchanged (R105, R213). -/
def Obligations.SentinelEndsTheRun : Prop :=
  (∀ w : Word, decodeWord w = .ok .halt ↔ w = 0) ∧
  (∀ s : State, ∃ t, exec .halt s = .next t ∧ TakesTermination .cliffTermination s t) ∧
  (∀ s : State, s.mem.wf → s.runState = .running → Fetchable s → s.mem.isPresent s.pc.toNat = false →
    ∃ t, step s = .next t ∧ TakesTermination .cliffTermination s t)

/-- A fetch fault ends the run with the fault recorded at `pc`, alignment before range; where neither holds the fetch obtains the
word at `pc` (R63). -/
def Obligations.FetchChecksTheProgramCounter : Prop :=
  ∀ s : State, s.runState = .running →
    (s.pc.toNat % 4 ≠ 0 → ∃ t, step s = .next t ∧ TakesFault .addressMisaligned s.pc s t) ∧
    (s.pc.toNat % 4 = 0 → ¬ InFetchRange s.pc.toNat 4 → ∃ t, step s = .next t ∧ TakesFault .addressOutOfRange s.pc s t) ∧
    (Fetchable s → fetch s = .ok (BitVec.ofNat 32 (bytesValue s.mem s.pc.toNat 4)))

/-- A step that takes a fault is precise: registers, HI, LO, memory and `pc` are as before it, the run has ended, and the report
carries the record (R226, R231). -/
def Obligations.FaultsArePrecise : Prop :=
  ∀ (s t : State) (f : FaultRecord), s.runState = .running → s.faultRecord = none → step s = .next t →
    t.faultRecord = some f →
    TakesFault f.kind f.faultingAddress s t ∧
    deliveredReport s t = some { terminated := true, reason := .fault, fault := some f }

/-- What an instruction's execution can fault with, and nothing else: the causes of the execute phase, each with its condition and
the address it records (R221). -/
def Obligations.ExecuteFaultsHaveTheListedCauses : Prop :=
  ∀ (i : Instr) (s t : State) (f : FaultRecord), s.faultRecord = none → exec i s = .next t → t.faultRecord = some f →
    (f.kind = .addressMisaligned ∧ ∃ rt rs imm n, (loadAccess i rs imm n ∨ storeAccess i rt rs imm n) ∧
      f.faultingAddress = effectiveAddress s rs imm ∧ (effectiveAddress s rs imm).toNat % n ≠ 0) ∨
    (f.kind = .addressOutOfRange ∧ ∃ rt rs imm n, (loadAccess i rs imm n ∨ storeAccess i rt rs imm n) ∧
      f.faultingAddress = effectiveAddress s rs imm ∧ (effectiveAddress s rs imm).toNat % n = 0 ∧
      ¬ InDataRange (effectiveAddress s rs imm).toNat n) ∨
    (f.kind = .arithmeticOverflow ∧ f.faultingAddress = s.pc ∧
      ∃ d e, exactResult i s d e ∧ OutsideSigned e) ∨
    (f.kind = .other ∧ f.faultingAddress = s.pc ∧
      ((∃ code, i = .break_ code) ∨ (i = .syscall ∧ s.reg 2 ≠ 10)))

/-! ## The step -/

/-- A step of a running machine runs the instruction its word at `pc` decodes to: exec, then the run controller's boundary, which
does nothing when the instruction ended the run (R230, R245). -/
def Obligations.StepRunsTheDecodedInstruction : Prop :=
  ∀ (s t : State) (i : Instr) (rest : List Byte), s.runState = .running → Fetchable s →
    decodeBytes [s.mem.byte s.pc.toNat, s.mem.byte (s.pc.toNat + 1), s.mem.byte (s.pc.toNat + 2),
      s.mem.byte (s.pc.toNat + 3)] = .ok (i, rest) →
    exec i s = .next t →
    step s = .next (stepBoundary t) ∧ (t.runState ≠ .running → step s = .next t)

/-- From every state the machine's step answers a next state: no state is stuck, and every spec fault is taken (R226, R230,
R257). That `step` answers the same state while nothing runs is the model's choice (log entry 7). -/
def Obligations.StepAlwaysAnswersNext : Prop :=
  ∀ s : State, ∃ t, step s = .next t ∧ (s.runState ≠ .running → t = s)

/-- An arithmetic or memory instruction that leaves the machine running has advanced `pc` by exactly 4 (R26, R140). -/
def Obligations.StraightLineAdvancesByFour : Prop :=
  ∀ (i : Instr) (s t : State), i.category = .arithmetic ∨ i.category = .memory → s.runState = .running →
    exec i s = .next t → t.runState = .running → t.pc = s.pc + 4

/-- The frame of every instruction: it changes no general register but its destination, HI and LO only if it is one of the six
that write them, memory only if it is a store and then only the stored bytes, and never the bookkeeping while the run goes on
(R28, R33, R50, R120, R130, R140, R168, R190, R210). -/
def Obligations.EveryInstructionKeepsItsFrame : Prop :=
  ∀ (i : Instr) (s t : State), s.mem.wf → exec i s = .next t →
    (∀ r : RegIdx, destination i ≠ some r → t.reg r = s.reg r) ∧
    (¬ writesHiLoPair i → KeepsHiLo s t) ∧
    ((∀ rt rs imm n, ¬ storeAccess i rt rs imm n) → KeepsMemory s t) ∧
    (∀ rt rs imm n, storeAccess i rt rs imm n →
      ∀ x, (x < (effectiveAddress s rs imm).toNat ∨ (effectiveAddress s rs imm).toNat + n ≤ x) →
        t.mem.byte x = s.mem.byte x) ∧
    (s.runState = .running → t.runState = .running → KeepsControl s t)

/-- What a core step does to the hardware block depends on the block alone: two running machines with the same registers, HI, LO,
`pc` and memory stay the same, and end their runs alike, whatever their run controllers hold (R33, R230, R296). That two fault
records of one kind at one address also carry one message rests on the model's choice of log entry 3; R224 compares kind and
address alone. -/
def Obligations.CoreStepDependsOnTheBlockAlone : Prop :=
  ∀ s s' t t' : State, s.runState = .running → s'.runState = .running → SameBlock s s' →
    s.faultRecord = s'.faultRecord → s.lastReason = s'.lastReason →
    coreStep s = .next t → coreStep s' = .next t' →
    SameBlock t t' ∧ t.runState = t'.runState ∧ t.faultRecord = t'.faultRecord ∧ t.lastReason = t'.lastReason

/-! ## The run controller -/

/-- A step of a running machine leaves it Running, Paused or Terminated, by the reason it records: Terminated exactly for normal
completion, cliff termination, fault and stop (R235, R241). -/
def Obligations.RunStateFollowsTheReason : Prop :=
  ∀ s t : State, s.runState = .running → step s = .next t →
    (t.runState = .running ∧ t.lastReason = s.lastReason) ∨
    (∃ r, t.lastReason = some r ∧
      ((t.runState = .terminated ∧ (r = .normalCompletion ∨ r = .cliffTermination ∨ r = .fault ∨ r = .stop)) ∨
       (t.runState = .paused ∧ (r = .stepLimit ∨ r = .breakpoint ∨ r = .pause))))

/-- When a run invocation ends, exactly one report is delivered and the per-invocation bookkeeping is cleared; while it goes on
none is delivered (R253). That the two arguments the model keeps for the invocation's length go back to their reset values is the
model's own way to say that nothing else of an invocation survives (log entry 4), and that the step of a machine at rest answers
the same state is the model's choice (log entry 7). -/
def Obligations.EndOfInvocationClearsAndReportsOnce : Prop :=
  ∀ s t : State, s.runState = .running → step s = .next t →
    (t.runState ≠ .running → BookkeepingClear t ∧ t.mode = State.reset.mode ∧ t.stepLimit = State.reset.stepLimit ∧
      ∃ r, t.lastReason = some r ∧ deliveredReport s t =
        some { terminated := decide (t.runState = .terminated), reason := r,
               fault := if r = .fault then t.faultRecord else none }) ∧
    (t.runState = .running → deliveredReport s t = none) ∧
    (∀ u, step t = .next u → t.runState ≠ .running → u = t ∧ deliveredReport t u = none)

/-- The tests at a step boundary: a fault or termination inside the step wins over all; after a completed step the order is
step-limit, breakpoint, stop, pause; the block is as the core step left it (R240, R245 to R249). The requests arrive through the
model's own input field, whatever it holds, and each completed step uses up one pair of it (log entry 5). -/
def Obligations.BoundaryTestsInOrder : Prop :=
  ∀ s u : State, s.runState = .running → coreStep s = .next u →
    (u.runState ≠ .running → step s = .next u) ∧
    (u.runState = .running →
      let n := u.stepCount + 1
      let stop := u.stopReq = true ∨ ∃ g rest, u.signals = g :: rest ∧ g.stop = true
      let pause := u.pauseReq = true ∨ ∃ g rest, u.signals = g :: rest ∧ g.pause = true
      let limit := 0 < u.stepLimit ∧ (n : Int) = u.stepLimit
      let hit := u.mode = .continuous ∧ u.pc ∈ u.bpSnapshot
      ∃ t, step s = .next t ∧ SameBlock u t ∧ t.faultRecord = u.faultRecord ∧ t.signals = u.signals.tail ∧
        (limit → t.runState = .paused ∧ t.lastReason = some .stepLimit) ∧
        (¬ limit → hit → t.runState = .paused ∧ t.lastReason = some .breakpoint) ∧
        (¬ limit → ¬ hit → stop → t.runState = .terminated ∧ t.lastReason = some .stop) ∧
        (¬ limit → ¬ hit → ¬ stop → pause → t.runState = .paused ∧ t.lastReason = some .pause) ∧
        (¬ limit → ¬ hit → ¬ stop → ¬ pause → t.runState = .running ∧ t.lastReason = u.lastReason ∧ t.stepCount = n ∧
          t.bpSnapshot = u.bpSnapshot ∧ t.transient = u.transient ∧ t.stepLimit = u.stepLimit ∧ t.mode = u.mode))

/-- A run request is admitted while Idle or Paused; while Running or Terminated it is a usage error that changes nothing, and so
is load while Running; requests to pause or stop are never errors; the inspection ports are not defined while Running, and
otherwise readRegister gives `x[id]` or `pc` and changes nothing (R38, R237, R242). -/
def Obligations.RunRequestAdmission : Prop :=
  ∀ (s : State) (c : HostCall) (b : List Word) (l : Int),
    (c = .runContinuous b l ∨ c = .runSingleStep ∨ c = .runStepOver b l) →
    (s.runState = .idle ∨ s.runState = .paused →
      ∃ t, hostCall c s = .next (.accepted, t) ∧ t.runState = .running ∧ t.stepCount = 0 ∧ SameBlock s t ∧
        t.faultRecord = s.faultRecord ∧ t.lastReason = s.lastReason) ∧
    (s.runState = .running ∨ s.runState = .terminated → hostCall c s = .next (.usageError, s)) ∧
    (s.runState = .running → ∀ img, hostCall (.load img) s = .next (.usageError, s)) ∧
    (s.runState = .running → ∀ id a, hostCall (.readRegister id) s = .refused .inspectionWhileRunning ∧
      hostCall (.readMemoryWord a) s = .refused .inspectionWhileRunning) ∧
    (s.runState ≠ .running → hostCall (.readRegister .pc) s = .next (.value s.pc, s) ∧
      ∀ r, hostCall (.readRegister (.gpr r)) s = .next (.value (s.reg r), s)) ∧
    (∃ t, hostCall .requestPause s = .next (.accepted, t)) ∧ (∃ t, hostCall .requestStop s = .next (.accepted, t))

/-- The arguments an admitted request runs with: the given breakpoints and limit in continuous mode; no breakpoints and a limit of
1 in single mode; step-over adds the transient breakpoint `pc + 4` at a call and is a single step elsewhere (R243, R250, R251). -/
def Obligations.RunRequestArguments : Prop :=
  ∀ (s : State) (b : List Word) (l : Int), s.runState = .idle ∨ s.runState = .paused →
    (∃ t, hostCall (.runContinuous b l) s = .next (.accepted, t) ∧ t.mode = .continuous ∧ t.stepLimit = l ∧
      t.transient = none ∧ ∀ a, a ∈ t.bpSnapshot ↔ a ∈ b) ∧
    (∃ t, hostCall .runSingleStep s = .next (.accepted, t) ∧ t.mode = .single ∧ t.stepLimit = 1 ∧ t.bpSnapshot = []) ∧
    (∀ i, Fetchable s → decodeWord (s.mem.word s.pc.toNat) = .ok i → i.category = .call →
      ∃ t, hostCall (.runStepOver b l) s = .next (.accepted, t) ∧ t.mode = .continuous ∧ t.stepLimit = l ∧
        t.transient = some (s.pc + 4) ∧ ∀ a, a ∈ t.bpSnapshot ↔ a ∈ b ∨ a = s.pc + 4) ∧
    (¬ Fetchable s ∨ (∀ i, decodeWord (s.mem.word s.pc.toNat) = .ok i → i.category ≠ .call) →
      hostCall (.runStepOver b l) s = hostCall .runSingleStep s)

/-- A single step runs one core step: if it completes the invocation ends Paused with reason step-limit, even with a pause or stop
request pending; if it faults or terminates, with that reason (R249, R252). -/
def Obligations.SingleStepRunsOneCoreStep : Prop :=
  ∀ s u v : State, hostCall .runSingleStep s = .next (.accepted, u) → coreStep u = .next v →
    ∃ rep t, runToReport 1 u = some (rep, t) ∧
      (v.runState = .running → t.runState = .paused ∧ SameBlock v t ∧
        rep = { terminated := false, reason := .stepLimit, fault := none }) ∧
      (v.runState ≠ .running → t = v ∧ v.runState = .terminated ∧ rep.terminated = true ∧ v.lastReason = some rep.reason)

/-- A pause or stop request sets its flag while Running and sets nothing otherwise (R248). -/
def Obligations.RequestsOutsideARunAreIgnored : Prop :=
  ∀ s : State,
    (s.runState ≠ .running → hostCall .requestPause s = .next (.accepted, s) ∧ hostCall .requestStop s = .next (.accepted, s)) ∧
    (s.runState = .running → ∃ t u, hostCall .requestPause s = .next (.accepted, t) ∧ t = { s with pauseReq := true } ∧
      hostCall .requestStop s = .next (.accepted, u) ∧ u = { s with stopReq := true })
end

