-- ==== Sys2Proof/Laws/Encoding.lean ====
section
/-! SUPPORT. What each field of an assembled word is (R91 to R94): reading a field back from a packed word gives the field. -/

namespace Sys2Proof

@[simp] theorem regBits_toFin (r : RegIdx) : (regBits r).toFin = r := rfl

@[simp] theorem toFin_zero_five : (0#5 : BitVec 5).toFin = (0 : RegIdx) := rfl

/-- A register identifier from its own bits. -/
theorem regBits_of_toFin (b : BitVec 5) : regBits b.toFin = b := rfl

theorem fieldOp_packR (rs rt rd sa : BitVec 5) (funct : BitVec 6) : fieldOp (packR rs rt rd sa funct) = 0 := by
  unfold fieldOp packR
  ext i hi
  simp
  interval_cases i <;> simp

theorem bitsRs_packR (rs rt rd sa : BitVec 5) (funct : BitVec 6) : bitsRs (packR rs rt rd sa funct) = rs := by
  unfold bitsRs packR
  ext i hi
  simp
  interval_cases i <;> simp [BitVec.getLsbD_eq_getElem]

theorem bitsRt_packR (rs rt rd sa : BitVec 5) (funct : BitVec 6) : bitsRt (packR rs rt rd sa funct) = rt := by
  unfold bitsRt packR
  ext i hi
  simp
  interval_cases i <;> simp [BitVec.getLsbD_eq_getElem]

theorem bitsRd_packR (rs rt rd sa : BitVec 5) (funct : BitVec 6) : bitsRd (packR rs rt rd sa funct) = rd := by
  unfold bitsRd packR
  ext i hi
  simp
  interval_cases i <;> simp [BitVec.getLsbD_eq_getElem]

theorem fieldSa_packR (rs rt rd sa : BitVec 5) (funct : BitVec 6) : fieldSa (packR rs rt rd sa funct) = sa := by
  unfold fieldSa packR
  ext i hi
  simp
  interval_cases i <;> simp [BitVec.getLsbD_eq_getElem]

theorem fieldFunct_packR (rs rt rd sa : BitVec 5) (funct : BitVec 6) : fieldFunct (packR rs rt rd sa funct) = funct := by
  unfold fieldFunct packR
  ext i hi
  simp
  interval_cases i <;> simp [BitVec.getLsbD_eq_getElem]

theorem fieldOp_packI (op : BitVec 6) (rs rt : BitVec 5) (imm : BitVec 16) : fieldOp (packI op rs rt imm) = op := by
  unfold fieldOp packI
  ext i hi
  simp
  interval_cases i <;> simp [BitVec.getLsbD_eq_getElem]

theorem bitsRs_packI (op : BitVec 6) (rs rt : BitVec 5) (imm : BitVec 16) : bitsRs (packI op rs rt imm) = rs := by
  unfold bitsRs packI
  ext i hi
  simp
  interval_cases i <;> simp [BitVec.getLsbD_eq_getElem]

theorem bitsRt_packI (op : BitVec 6) (rs rt : BitVec 5) (imm : BitVec 16) : bitsRt (packI op rs rt imm) = rt := by
  unfold bitsRt packI
  ext i hi
  simp
  interval_cases i <;> simp [BitVec.getLsbD_eq_getElem]

theorem fieldImm_packI (op : BitVec 6) (rs rt : BitVec 5) (imm : BitVec 16) : fieldImm (packI op rs rt imm) = imm := by
  unfold fieldImm packI
  ext i hi
  simp
  interval_cases i <;> simp [BitVec.getLsbD_eq_getElem]

theorem fieldOp_packJ (op : BitVec 6) (target : BitVec 26) : fieldOp (packJ op target) = op := by
  unfold fieldOp packJ
  ext i hi
  simp
  interval_cases i <;> simp [BitVec.getLsbD_eq_getElem]

theorem fieldTarget_packJ (op : BitVec 6) (target : BitVec 26) : fieldTarget (packJ op target) = target := by
  unfold fieldTarget packJ
  ext i hi
  simp
  interval_cases i <;> simp [BitVec.getLsbD_eq_getElem]

theorem fieldOp_packBreak (code : BitVec 20) : fieldOp (packBreak code) = 0 := by
  unfold fieldOp packBreak
  ext i hi
  simp
  interval_cases i <;> simp [BitVec.getLsbD_eq_getElem]

theorem fieldFunct_packBreak (code : BitVec 20) : fieldFunct (packBreak code) = 0x0d := by
  unfold fieldFunct packBreak
  ext i hi
  simp
  interval_cases i <;> simp [BitVec.getLsbD_eq_getElem]

theorem fieldCode_packBreak (code : BitVec 20) : fieldCode (packBreak code) = code := by
  unfold fieldCode packBreak
  ext i hi
  simp
  interval_cases i <;> simp [BitVec.getLsbD_eq_getElem]

end Sys2Proof
end

