-- ==== Sys2Proof/Laws/State.lean ====
section
/-! SUPPORT. One lemma for each field of State under each update of a state, true by definition, so that no later proof unfolds a
record update. -/

namespace Sys2Proof.Machine

/-! ## setReg -/

@[simp] theorem setReg_regs (s : State) (r : RegIdx) (v : Word) : (s.setReg r v).regs = writeRegs s.regs r v := rfl
@[simp] theorem setReg_pc (s : State) (r : RegIdx) (v : Word) : (s.setReg r v).pc = s.pc := rfl
@[simp] theorem setReg_hi (s : State) (r : RegIdx) (v : Word) : (s.setReg r v).hi = s.hi := rfl
@[simp] theorem setReg_lo (s : State) (r : RegIdx) (v : Word) : (s.setReg r v).lo = s.lo := rfl
@[simp] theorem setReg_mem (s : State) (r : RegIdx) (v : Word) : (s.setReg r v).mem = s.mem := rfl
@[simp] theorem setReg_runState (s : State) (r : RegIdx) (v : Word) : (s.setReg r v).runState = s.runState := rfl
@[simp] theorem setReg_faultRecord (s : State) (r : RegIdx) (v : Word) : (s.setReg r v).faultRecord = s.faultRecord := rfl
@[simp] theorem setReg_lastReason (s : State) (r : RegIdx) (v : Word) : (s.setReg r v).lastReason = s.lastReason := rfl
@[simp] theorem setReg_stepCount (s : State) (r : RegIdx) (v : Word) : (s.setReg r v).stepCount = s.stepCount := rfl
@[simp] theorem setReg_pauseReq (s : State) (r : RegIdx) (v : Word) : (s.setReg r v).pauseReq = s.pauseReq := rfl
@[simp] theorem setReg_stopReq (s : State) (r : RegIdx) (v : Word) : (s.setReg r v).stopReq = s.stopReq := rfl
@[simp] theorem setReg_bpSnapshot (s : State) (r : RegIdx) (v : Word) : (s.setReg r v).bpSnapshot = s.bpSnapshot := rfl
@[simp] theorem setReg_transient (s : State) (r : RegIdx) (v : Word) : (s.setReg r v).transient = s.transient := rfl
@[simp] theorem setReg_mode (s : State) (r : RegIdx) (v : Word) : (s.setReg r v).mode = s.mode := rfl
@[simp] theorem setReg_stepLimit (s : State) (r : RegIdx) (v : Word) : (s.setReg r v).stepLimit = s.stepLimit := rfl
@[simp] theorem setReg_signals (s : State) (r : RegIdx) (v : Word) : (s.setReg r v).signals = s.signals := rfl

/-! ## setHiLo -/

@[simp] theorem setHiLo_regs (s : State) (h l : Word) : (s.setHiLo h l).regs = s.regs := rfl
@[simp] theorem setHiLo_pc (s : State) (h l : Word) : (s.setHiLo h l).pc = s.pc := rfl
@[simp] theorem setHiLo_hi (s : State) (h l : Word) : (s.setHiLo h l).hi = h := rfl
@[simp] theorem setHiLo_lo (s : State) (h l : Word) : (s.setHiLo h l).lo = l := rfl
@[simp] theorem setHiLo_mem (s : State) (h l : Word) : (s.setHiLo h l).mem = s.mem := rfl
@[simp] theorem setHiLo_runState (s : State) (h l : Word) : (s.setHiLo h l).runState = s.runState := rfl
@[simp] theorem setHiLo_faultRecord (s : State) (h l : Word) : (s.setHiLo h l).faultRecord = s.faultRecord := rfl
@[simp] theorem setHiLo_lastReason (s : State) (h l : Word) : (s.setHiLo h l).lastReason = s.lastReason := rfl
@[simp] theorem setHiLo_stepCount (s : State) (h l : Word) : (s.setHiLo h l).stepCount = s.stepCount := rfl
@[simp] theorem setHiLo_pauseReq (s : State) (h l : Word) : (s.setHiLo h l).pauseReq = s.pauseReq := rfl
@[simp] theorem setHiLo_stopReq (s : State) (h l : Word) : (s.setHiLo h l).stopReq = s.stopReq := rfl
@[simp] theorem setHiLo_bpSnapshot (s : State) (h l : Word) : (s.setHiLo h l).bpSnapshot = s.bpSnapshot := rfl
@[simp] theorem setHiLo_transient (s : State) (h l : Word) : (s.setHiLo h l).transient = s.transient := rfl
@[simp] theorem setHiLo_mode (s : State) (h l : Word) : (s.setHiLo h l).mode = s.mode := rfl
@[simp] theorem setHiLo_stepLimit (s : State) (h l : Word) : (s.setHiLo h l).stepLimit = s.stepLimit := rfl
@[simp] theorem setHiLo_signals (s : State) (h l : Word) : (s.setHiLo h l).signals = s.signals := rfl

/-! ## setMem -/

@[simp] theorem setMem_regs (s : State) (m : Memory) : (s.setMem m).regs = s.regs := rfl
@[simp] theorem setMem_pc (s : State) (m : Memory) : (s.setMem m).pc = s.pc := rfl
@[simp] theorem setMem_hi (s : State) (m : Memory) : (s.setMem m).hi = s.hi := rfl
@[simp] theorem setMem_lo (s : State) (m : Memory) : (s.setMem m).lo = s.lo := rfl
@[simp] theorem setMem_mem (s : State) (m : Memory) : (s.setMem m).mem = m := rfl
@[simp] theorem setMem_runState (s : State) (m : Memory) : (s.setMem m).runState = s.runState := rfl
@[simp] theorem setMem_faultRecord (s : State) (m : Memory) : (s.setMem m).faultRecord = s.faultRecord := rfl
@[simp] theorem setMem_lastReason (s : State) (m : Memory) : (s.setMem m).lastReason = s.lastReason := rfl
@[simp] theorem setMem_stepCount (s : State) (m : Memory) : (s.setMem m).stepCount = s.stepCount := rfl
@[simp] theorem setMem_pauseReq (s : State) (m : Memory) : (s.setMem m).pauseReq = s.pauseReq := rfl
@[simp] theorem setMem_stopReq (s : State) (m : Memory) : (s.setMem m).stopReq = s.stopReq := rfl
@[simp] theorem setMem_bpSnapshot (s : State) (m : Memory) : (s.setMem m).bpSnapshot = s.bpSnapshot := rfl
@[simp] theorem setMem_transient (s : State) (m : Memory) : (s.setMem m).transient = s.transient := rfl
@[simp] theorem setMem_mode (s : State) (m : Memory) : (s.setMem m).mode = s.mode := rfl
@[simp] theorem setMem_stepLimit (s : State) (m : Memory) : (s.setMem m).stepLimit = s.stepLimit := rfl
@[simp] theorem setMem_signals (s : State) (m : Memory) : (s.setMem m).signals = s.signals := rfl

/-! ## advance -/

@[simp] theorem advance_regs (s : State) : (s.advance).regs = s.regs := rfl
@[simp] theorem advance_pc (s : State) : (s.advance).pc = s.pc + 4 := rfl
@[simp] theorem advance_hi (s : State) : (s.advance).hi = s.hi := rfl
@[simp] theorem advance_lo (s : State) : (s.advance).lo = s.lo := rfl
@[simp] theorem advance_mem (s : State) : (s.advance).mem = s.mem := rfl
@[simp] theorem advance_runState (s : State) : (s.advance).runState = s.runState := rfl
@[simp] theorem advance_faultRecord (s : State) : (s.advance).faultRecord = s.faultRecord := rfl
@[simp] theorem advance_lastReason (s : State) : (s.advance).lastReason = s.lastReason := rfl
@[simp] theorem advance_stepCount (s : State) : (s.advance).stepCount = s.stepCount := rfl
@[simp] theorem advance_pauseReq (s : State) : (s.advance).pauseReq = s.pauseReq := rfl
@[simp] theorem advance_stopReq (s : State) : (s.advance).stopReq = s.stopReq := rfl
@[simp] theorem advance_bpSnapshot (s : State) : (s.advance).bpSnapshot = s.bpSnapshot := rfl
@[simp] theorem advance_transient (s : State) : (s.advance).transient = s.transient := rfl
@[simp] theorem advance_mode (s : State) : (s.advance).mode = s.mode := rfl
@[simp] theorem advance_stepLimit (s : State) : (s.advance).stepLimit = s.stepLimit := rfl
@[simp] theorem advance_signals (s : State) : (s.advance).signals = s.signals := rfl

/-! ## redirect -/

@[simp] theorem redirect_regs (s : State) (a : Word) : (s.redirect a).regs = s.regs := rfl
@[simp] theorem redirect_pc (s : State) (a : Word) : (s.redirect a).pc = a := rfl
@[simp] theorem redirect_hi (s : State) (a : Word) : (s.redirect a).hi = s.hi := rfl
@[simp] theorem redirect_lo (s : State) (a : Word) : (s.redirect a).lo = s.lo := rfl
@[simp] theorem redirect_mem (s : State) (a : Word) : (s.redirect a).mem = s.mem := rfl
@[simp] theorem redirect_runState (s : State) (a : Word) : (s.redirect a).runState = s.runState := rfl
@[simp] theorem redirect_faultRecord (s : State) (a : Word) : (s.redirect a).faultRecord = s.faultRecord := rfl
@[simp] theorem redirect_lastReason (s : State) (a : Word) : (s.redirect a).lastReason = s.lastReason := rfl
@[simp] theorem redirect_stepCount (s : State) (a : Word) : (s.redirect a).stepCount = s.stepCount := rfl
@[simp] theorem redirect_pauseReq (s : State) (a : Word) : (s.redirect a).pauseReq = s.pauseReq := rfl
@[simp] theorem redirect_stopReq (s : State) (a : Word) : (s.redirect a).stopReq = s.stopReq := rfl
@[simp] theorem redirect_bpSnapshot (s : State) (a : Word) : (s.redirect a).bpSnapshot = s.bpSnapshot := rfl
@[simp] theorem redirect_transient (s : State) (a : Word) : (s.redirect a).transient = s.transient := rfl
@[simp] theorem redirect_mode (s : State) (a : Word) : (s.redirect a).mode = s.mode := rfl
@[simp] theorem redirect_stepLimit (s : State) (a : Word) : (s.redirect a).stepLimit = s.stepLimit := rfl
@[simp] theorem redirect_signals (s : State) (a : Word) : (s.redirect a).signals = s.signals := rfl

/-! ## countStep -/

@[simp] theorem countStep_regs (s : State) : (countStep s).regs = s.regs := rfl
@[simp] theorem countStep_pc (s : State) : (countStep s).pc = s.pc := rfl
@[simp] theorem countStep_hi (s : State) : (countStep s).hi = s.hi := rfl
@[simp] theorem countStep_lo (s : State) : (countStep s).lo = s.lo := rfl
@[simp] theorem countStep_mem (s : State) : (countStep s).mem = s.mem := rfl
@[simp] theorem countStep_runState (s : State) : (countStep s).runState = s.runState := rfl
@[simp] theorem countStep_faultRecord (s : State) : (countStep s).faultRecord = s.faultRecord := rfl
@[simp] theorem countStep_lastReason (s : State) : (countStep s).lastReason = s.lastReason := rfl
@[simp] theorem countStep_stepCount (s : State) : (countStep s).stepCount = s.stepCount + 1 := rfl
@[simp] theorem countStep_pauseReq (s : State) : (countStep s).pauseReq = s.pauseReq := rfl
@[simp] theorem countStep_stopReq (s : State) : (countStep s).stopReq = s.stopReq := rfl
@[simp] theorem countStep_bpSnapshot (s : State) : (countStep s).bpSnapshot = s.bpSnapshot := rfl
@[simp] theorem countStep_transient (s : State) : (countStep s).transient = s.transient := rfl
@[simp] theorem countStep_mode (s : State) : (countStep s).mode = s.mode := rfl
@[simp] theorem countStep_stepLimit (s : State) : (countStep s).stepLimit = s.stepLimit := rfl
@[simp] theorem countStep_signals (s : State) : (countStep s).signals = s.signals := rfl

/-! ## endInvocation -/

@[simp] theorem endInvocation_regs (st : RunState) (r : Reason) (s : State) : (endInvocation st r s).regs = s.regs := rfl
@[simp] theorem endInvocation_pc (st : RunState) (r : Reason) (s : State) : (endInvocation st r s).pc = s.pc := rfl
@[simp] theorem endInvocation_hi (st : RunState) (r : Reason) (s : State) : (endInvocation st r s).hi = s.hi := rfl
@[simp] theorem endInvocation_lo (st : RunState) (r : Reason) (s : State) : (endInvocation st r s).lo = s.lo := rfl
@[simp] theorem endInvocation_mem (st : RunState) (r : Reason) (s : State) : (endInvocation st r s).mem = s.mem := rfl
@[simp] theorem endInvocation_runState (st : RunState) (r : Reason) (s : State) : (endInvocation st r s).runState = st := rfl
@[simp] theorem endInvocation_faultRecord (st : RunState) (r : Reason) (s : State) : (endInvocation st r s).faultRecord = s.faultRecord := rfl
@[simp] theorem endInvocation_lastReason (st : RunState) (r : Reason) (s : State) : (endInvocation st r s).lastReason = some r := rfl
@[simp] theorem endInvocation_stepCount (st : RunState) (r : Reason) (s : State) : (endInvocation st r s).stepCount = 0 := rfl
@[simp] theorem endInvocation_pauseReq (st : RunState) (r : Reason) (s : State) : (endInvocation st r s).pauseReq = false := rfl
@[simp] theorem endInvocation_stopReq (st : RunState) (r : Reason) (s : State) : (endInvocation st r s).stopReq = false := rfl
@[simp] theorem endInvocation_bpSnapshot (st : RunState) (r : Reason) (s : State) : (endInvocation st r s).bpSnapshot = [] := rfl
@[simp] theorem endInvocation_transient (st : RunState) (r : Reason) (s : State) : (endInvocation st r s).transient = none := rfl
@[simp] theorem endInvocation_mode (st : RunState) (r : Reason) (s : State) : (endInvocation st r s).mode = .continuous := rfl
@[simp] theorem endInvocation_stepLimit (st : RunState) (r : Reason) (s : State) : (endInvocation st r s).stepLimit = 0 := rfl
@[simp] theorem endInvocation_signals (st : RunState) (r : Reason) (s : State) : (endInvocation st r s).signals = s.signals := rfl

/-! ## raiseFault -/

@[simp] theorem raiseFault_regs (k : FaultKind) (a : Word) (s : State) : (raiseFault k a s).regs = s.regs := rfl
@[simp] theorem raiseFault_pc (k : FaultKind) (a : Word) (s : State) : (raiseFault k a s).pc = s.pc := rfl
@[simp] theorem raiseFault_hi (k : FaultKind) (a : Word) (s : State) : (raiseFault k a s).hi = s.hi := rfl
@[simp] theorem raiseFault_lo (k : FaultKind) (a : Word) (s : State) : (raiseFault k a s).lo = s.lo := rfl
@[simp] theorem raiseFault_mem (k : FaultKind) (a : Word) (s : State) : (raiseFault k a s).mem = s.mem := rfl
@[simp] theorem raiseFault_runState (k : FaultKind) (a : Word) (s : State) : (raiseFault k a s).runState = .terminated := rfl
@[simp] theorem raiseFault_faultRecord (k : FaultKind) (a : Word) (s : State) : (raiseFault k a s).faultRecord = some ⟨k, a, Config.faultMessage k.code a⟩ := rfl
@[simp] theorem raiseFault_lastReason (k : FaultKind) (a : Word) (s : State) : (raiseFault k a s).lastReason = some .fault := rfl
@[simp] theorem raiseFault_stepCount (k : FaultKind) (a : Word) (s : State) : (raiseFault k a s).stepCount = 0 := rfl
@[simp] theorem raiseFault_pauseReq (k : FaultKind) (a : Word) (s : State) : (raiseFault k a s).pauseReq = false := rfl
@[simp] theorem raiseFault_stopReq (k : FaultKind) (a : Word) (s : State) : (raiseFault k a s).stopReq = false := rfl
@[simp] theorem raiseFault_bpSnapshot (k : FaultKind) (a : Word) (s : State) : (raiseFault k a s).bpSnapshot = [] := rfl
@[simp] theorem raiseFault_transient (k : FaultKind) (a : Word) (s : State) : (raiseFault k a s).transient = none := rfl
@[simp] theorem raiseFault_mode (k : FaultKind) (a : Word) (s : State) : (raiseFault k a s).mode = .continuous := rfl
@[simp] theorem raiseFault_stepLimit (k : FaultKind) (a : Word) (s : State) : (raiseFault k a s).stepLimit = 0 := rfl
@[simp] theorem raiseFault_signals (k : FaultKind) (a : Word) (s : State) : (raiseFault k a s).signals = s.signals := rfl

/-! ## terminate -/

@[simp] theorem terminate_regs (r : Reason) (s : State) : (terminate r s).regs = s.regs := rfl
@[simp] theorem terminate_pc (r : Reason) (s : State) : (terminate r s).pc = s.pc := rfl
@[simp] theorem terminate_hi (r : Reason) (s : State) : (terminate r s).hi = s.hi := rfl
@[simp] theorem terminate_lo (r : Reason) (s : State) : (terminate r s).lo = s.lo := rfl
@[simp] theorem terminate_mem (r : Reason) (s : State) : (terminate r s).mem = s.mem := rfl
@[simp] theorem terminate_runState (r : Reason) (s : State) : (terminate r s).runState = .terminated := rfl
@[simp] theorem terminate_faultRecord (r : Reason) (s : State) : (terminate r s).faultRecord = s.faultRecord := rfl
@[simp] theorem terminate_lastReason (r : Reason) (s : State) : (terminate r s).lastReason = some r := rfl
@[simp] theorem terminate_stepCount (r : Reason) (s : State) : (terminate r s).stepCount = 0 := rfl
@[simp] theorem terminate_pauseReq (r : Reason) (s : State) : (terminate r s).pauseReq = false := rfl
@[simp] theorem terminate_stopReq (r : Reason) (s : State) : (terminate r s).stopReq = false := rfl
@[simp] theorem terminate_bpSnapshot (r : Reason) (s : State) : (terminate r s).bpSnapshot = [] := rfl
@[simp] theorem terminate_transient (r : Reason) (s : State) : (terminate r s).transient = none := rfl
@[simp] theorem terminate_mode (r : Reason) (s : State) : (terminate r s).mode = .continuous := rfl
@[simp] theorem terminate_stepLimit (r : Reason) (s : State) : (terminate r s).stepLimit = 0 := rfl
@[simp] theorem terminate_signals (r : Reason) (s : State) : (terminate r s).signals = s.signals := rfl

/-! ## beginInvocation -/

@[simp] theorem beginInvocation_regs (m : RunMode) (b : List Word) (t : Option Word) (l : Int) (s : State) : (beginInvocation m b t l s).regs = s.regs := rfl
@[simp] theorem beginInvocation_pc (m : RunMode) (b : List Word) (t : Option Word) (l : Int) (s : State) : (beginInvocation m b t l s).pc = s.pc := rfl
@[simp] theorem beginInvocation_hi (m : RunMode) (b : List Word) (t : Option Word) (l : Int) (s : State) : (beginInvocation m b t l s).hi = s.hi := rfl
@[simp] theorem beginInvocation_lo (m : RunMode) (b : List Word) (t : Option Word) (l : Int) (s : State) : (beginInvocation m b t l s).lo = s.lo := rfl
@[simp] theorem beginInvocation_mem (m : RunMode) (b : List Word) (t : Option Word) (l : Int) (s : State) : (beginInvocation m b t l s).mem = s.mem := rfl
@[simp] theorem beginInvocation_runState (m : RunMode) (b : List Word) (t : Option Word) (l : Int) (s : State) : (beginInvocation m b t l s).runState = .running := rfl
@[simp] theorem beginInvocation_faultRecord (m : RunMode) (b : List Word) (t : Option Word) (l : Int) (s : State) : (beginInvocation m b t l s).faultRecord = s.faultRecord := rfl
@[simp] theorem beginInvocation_lastReason (m : RunMode) (b : List Word) (t : Option Word) (l : Int) (s : State) : (beginInvocation m b t l s).lastReason = s.lastReason := rfl
@[simp] theorem beginInvocation_stepCount (m : RunMode) (b : List Word) (t : Option Word) (l : Int) (s : State) : (beginInvocation m b t l s).stepCount = 0 := rfl
@[simp] theorem beginInvocation_pauseReq (m : RunMode) (b : List Word) (t : Option Word) (l : Int) (s : State) : (beginInvocation m b t l s).pauseReq = s.pauseReq := rfl
@[simp] theorem beginInvocation_stopReq (m : RunMode) (b : List Word) (t : Option Word) (l : Int) (s : State) : (beginInvocation m b t l s).stopReq = s.stopReq := rfl
@[simp] theorem beginInvocation_bpSnapshot (m : RunMode) (b : List Word) (t : Option Word) (l : Int) (s : State) : (beginInvocation m b t l s).bpSnapshot = b := rfl
@[simp] theorem beginInvocation_transient (m : RunMode) (b : List Word) (t : Option Word) (l : Int) (s : State) : (beginInvocation m b t l s).transient = t := rfl
@[simp] theorem beginInvocation_mode (m : RunMode) (b : List Word) (t : Option Word) (l : Int) (s : State) : (beginInvocation m b t l s).mode = m := rfl
@[simp] theorem beginInvocation_stepLimit (m : RunMode) (b : List Word) (t : Option Word) (l : Int) (s : State) : (beginInvocation m b t l s).stepLimit = l := rfl
@[simp] theorem beginInvocation_signals (m : RunMode) (b : List Word) (t : Option Word) (l : Int) (s : State) : (beginInvocation m b t l s).signals = s.signals := rfl

/-! ## takeSignals -/

@[simp] theorem takeSignals_regs (s : State) : (takeSignals s).regs = s.regs := by
  unfold takeSignals; split <;> rfl
@[simp] theorem takeSignals_pc (s : State) : (takeSignals s).pc = s.pc := by
  unfold takeSignals; split <;> rfl
@[simp] theorem takeSignals_hi (s : State) : (takeSignals s).hi = s.hi := by
  unfold takeSignals; split <;> rfl
@[simp] theorem takeSignals_lo (s : State) : (takeSignals s).lo = s.lo := by
  unfold takeSignals; split <;> rfl
@[simp] theorem takeSignals_mem (s : State) : (takeSignals s).mem = s.mem := by
  unfold takeSignals; split <;> rfl
@[simp] theorem takeSignals_runState (s : State) : (takeSignals s).runState = s.runState := by
  unfold takeSignals; split <;> rfl
@[simp] theorem takeSignals_faultRecord (s : State) : (takeSignals s).faultRecord = s.faultRecord := by
  unfold takeSignals; split <;> rfl
@[simp] theorem takeSignals_lastReason (s : State) : (takeSignals s).lastReason = s.lastReason := by
  unfold takeSignals; split <;> rfl
@[simp] theorem takeSignals_stepCount (s : State) : (takeSignals s).stepCount = s.stepCount := by
  unfold takeSignals; split <;> rfl
@[simp] theorem takeSignals_bpSnapshot (s : State) : (takeSignals s).bpSnapshot = s.bpSnapshot := by
  unfold takeSignals; split <;> rfl
@[simp] theorem takeSignals_transient (s : State) : (takeSignals s).transient = s.transient := by
  unfold takeSignals; split <;> rfl
@[simp] theorem takeSignals_mode (s : State) : (takeSignals s).mode = s.mode := by
  unfold takeSignals; split <;> rfl
@[simp] theorem takeSignals_stepLimit (s : State) : (takeSignals s).stepLimit = s.stepLimit := by
  unfold takeSignals; split <;> rfl

@[simp] theorem takeSignals_signals (s : State) : (takeSignals s).signals = s.signals.tail := by
  unfold takeSignals; split <;> simp [*]

/-! ## loadImage -/

@[simp] theorem loadImage_regs (img : ProgramImage) (s : State) : (loadImage img s).regs = State.reset.regs := rfl
@[simp] theorem loadImage_pc (img : ProgramImage) (s : State) : (loadImage img s).pc = img.entry := rfl
@[simp] theorem loadImage_hi (img : ProgramImage) (s : State) : (loadImage img s).hi = 0 := rfl
@[simp] theorem loadImage_lo (img : ProgramImage) (s : State) : (loadImage img s).lo = 0 := rfl
@[simp] theorem loadImage_mem (img : ProgramImage) (s : State) : (loadImage img s).mem = imageMemory img.words := rfl
@[simp] theorem loadImage_runState (img : ProgramImage) (s : State) : (loadImage img s).runState = .idle := rfl
@[simp] theorem loadImage_faultRecord (img : ProgramImage) (s : State) : (loadImage img s).faultRecord = none := rfl
@[simp] theorem loadImage_lastReason (img : ProgramImage) (s : State) : (loadImage img s).lastReason = none := rfl
@[simp] theorem loadImage_stepCount (img : ProgramImage) (s : State) : (loadImage img s).stepCount = 0 := rfl
@[simp] theorem loadImage_pauseReq (img : ProgramImage) (s : State) : (loadImage img s).pauseReq = false := rfl
@[simp] theorem loadImage_stopReq (img : ProgramImage) (s : State) : (loadImage img s).stopReq = false := rfl
@[simp] theorem loadImage_bpSnapshot (img : ProgramImage) (s : State) : (loadImage img s).bpSnapshot = [] := rfl
@[simp] theorem loadImage_transient (img : ProgramImage) (s : State) : (loadImage img s).transient = none := rfl
@[simp] theorem loadImage_mode (img : ProgramImage) (s : State) : (loadImage img s).mode = .continuous := rfl
@[simp] theorem loadImage_stepLimit (img : ProgramImage) (s : State) : (loadImage img s).stepLimit = 0 := rfl
@[simp] theorem loadImage_signals (img : ProgramImage) (s : State) : (loadImage img s).signals = s.signals := rfl

end Sys2Proof.Machine
end

