-- ==== Sys2Proof/Laws/Registers.lean ====
section
/-! SUPPORT. What a read of a register sees after each update of the state. -/

namespace Sys2Proof.Machine

@[simp] theorem reg_zero (s : State) : s.reg 0 = 0 := by simp [State.reg]

/-- A state's registers read as another's if their register files agree. -/
theorem reg_congr {s t : State} (h : t.regs = s.regs) (r : RegIdx) : t.reg r = s.reg r := by
  simp [State.reg, h]

theorem reg_setReg (s : State) (rd r : RegIdx) (v : Word) :
    (s.setReg rd v).reg r = if r = rd ∧ rd ≠ 0 then v else s.reg r := by
  by_cases hr : r = 0
  · subst hr
    by_cases h : (0 : RegIdx) = rd
    · simp [← h]
    · simp [h]
  · by_cases hd : rd = 0
    · simp [State.reg, hr, writeRegs, hd]
    · have hne : r = rd ↔ rd.val = r.val := by rw [eq_comm, Fin.ext_iff]
      simp [State.reg, hr, writeRegs, hd, Vector.getElem_set, hne]

theorem reg_setReg_same (s : State) {rd : RegIdx} (v : Word) (h : rd ≠ 0) : (s.setReg rd v).reg rd = v := by
  simp [reg_setReg, h]

theorem reg_setReg_other (s : State) {rd r : RegIdx} (v : Word) (h : r ≠ rd) : (s.setReg rd v).reg r = s.reg r := by
  simp [reg_setReg, h]

/-- A write to register 0 is ignored (R8, R23). -/
@[simp] theorem setReg_zero (s : State) (v : Word) : s.setReg 0 v = s := by simp [State.setReg, writeRegs]

@[simp] theorem reg_advance (s : State) (r : RegIdx) : s.advance.reg r = s.reg r := rfl
@[simp] theorem reg_redirect (s : State) (a : Word) (r : RegIdx) : (s.redirect a).reg r = s.reg r := rfl
@[simp] theorem reg_setHiLo (s : State) (h l : Word) (r : RegIdx) : (s.setHiLo h l).reg r = s.reg r := rfl
@[simp] theorem reg_setMem (s : State) (m : Memory) (r : RegIdx) : (s.setMem m).reg r = s.reg r := rfl
@[simp] theorem reg_raiseFault (k : FaultKind) (a : Word) (s : State) (r : RegIdx) : (raiseFault k a s).reg r = s.reg r := rfl
@[simp] theorem reg_terminate (q : Reason) (s : State) (r : RegIdx) : (terminate q s).reg r = s.reg r := rfl
@[simp] theorem reg_endInvocation (st : RunState) (q : Reason) (s : State) (r : RegIdx) :
    (endInvocation st q s).reg r = s.reg r := rfl

/-- The slot of register 0 keeps its value under every register write. -/
theorem writeRegs_slot_zero (regs : Vector Word 32) (r : RegIdx) (v : Word) : (writeRegs regs r v)[0] = regs[0] := by
  unfold writeRegs
  split
  · rfl
  · rename_i h
    have hr : r.val ≠ 0 := fun hv => h (Fin.ext hv)
    simp [hr]

end Sys2Proof.Machine
end

