-- ==== Sys2Proof/Laws/Memory.lean ====
section
/-! SUPPORT. Memory: a read after a write gives the value at the written bytes and the old value elsewhere; presence after a
write; every operation keeps the canonical form; what the access check decides. -/

namespace Sys2Proof.Machine

/-! ## The list of bytes -/

/-- A rising list reads zero at every address below its first entry. -/
theorem lookupCell_below {rest : List Host.Cell} {b : Nat} (hb : ∀ c ∈ rest, b < c.1) {y : Nat} (hy : y ≤ b) :
    lookupCell rest y = 0 := by
  induction rest with
  | nil => rfl
  | cons d ds ih =>
    have hd := hb d (by simp)
    simp [lookupCell, (show ¬ d.1 = y by omega), ih (fun e he => hb e (by simp [he]))]

theorem lookupCell_setCell (cells : List Host.Cell) (hs : cells.Pairwise (fun c d => c.1 < d.1)) (a : Nat) (v : Byte) (x : Nat) :
    lookupCell (setCell cells a v) x = if x = a then v else lookupCell cells x := by
  induction cells with
  | nil =>
    unfold setCell
    by_cases hx : x = a
    · subst hx; split <;> simp_all [lookupCell]
    · have hx' : ¬ a = x := fun h => hx h.symm
      split <;> simp [lookupCell, hx']
  | cons c rest ih =>
    obtain ⟨b, u⟩ := c
    obtain ⟨hb, hrest⟩ := List.pairwise_cons.mp hs
    have below : ∀ y, y ≤ b → lookupCell rest y = 0 := fun y hy => lookupCell_below hb hy
    by_cases hx : x = a
    · subst hx
      rw [if_pos rfl]
      unfold setCell
      split
      · rename_i hab
        split
        · rename_i hv; rw [hv, lookupCell, if_neg (by omega), below x (by omega)]
        · simp [lookupCell]
      · split
        · rename_i hab
          split
          · rename_i hv; rw [hv, below x (by omega)]
          · simp [lookupCell]
        · rename_i hab; rw [lookupCell, if_neg (by omega), ih hrest, if_pos rfl]
    · rw [if_neg hx]
      have hx' : ¬ a = x := fun h => hx h.symm
      unfold setCell
      split
      · split <;> simp [lookupCell, hx']
      · split
        · rename_i hab
          subst hab
          split <;> simp [lookupCell, hx']
        · by_cases hbx : b = x
          · simp [lookupCell, hbx]
          · simp [lookupCell, hbx, ih hrest, hx]

/-- Every listed byte after a write is an old one or the written one. -/
theorem mem_setCell {cells : List Host.Cell} {a : Nat} {v : Byte} {c : Host.Cell} (h : c ∈ setCell cells a v) :
    c ∈ cells ∨ (c = (a, v) ∧ v ≠ 0) := by
  induction cells with
  | nil => unfold setCell at h; split at h <;> simp_all
  | cons d rest ih =>
    obtain ⟨b, u⟩ := d
    unfold setCell at h
    split at h
    · split at h <;> simp_all
      tauto
    · split at h
      · split at h <;> simp_all
        tauto
      · rcases List.mem_cons.mp h with h | h
        · simp [h]
        · rcases ih h with h | h
          · simp [h]
          · exact .inr h

theorem setCell_rising {cells : List Host.Cell} (hs : cells.Pairwise (fun c d => c.1 < d.1)) (a : Nat) (v : Byte) :
    (setCell cells a v).Pairwise (fun c d => c.1 < d.1) := by
  induction cells with
  | nil => unfold setCell; split <;> simp
  | cons d rest ih =>
    obtain ⟨b, u⟩ := d
    obtain ⟨hb, hrest⟩ := List.pairwise_cons.mp hs
    unfold setCell
    split
    · split
      · exact hs
      · refine List.pairwise_cons.mpr ⟨fun c hc => ?_, hs⟩
        rcases List.mem_cons.mp hc with hc | hc
        · subst hc; assumption
        · have := hb c hc; simp only at this ⊢; omega
    · split
      · split
        · exact hrest
        · rename_i hab _
          subst hab
          exact List.pairwise_cons.mpr ⟨hb, hrest⟩
      · refine List.pairwise_cons.mpr ⟨fun c hc => ?_, ih hrest⟩
        rcases mem_setCell hc with hc | ⟨hc, _⟩
        · exact hb c hc
        · subst hc; simp only; omega

/-! ## The list of present words -/

theorem mem_insertAddress {l : List Nat} {a x : Nat} : x ∈ insertAddress l a ↔ x = a ∨ x ∈ l := by
  induction l with
  | nil => simp [insertAddress]
  | cons b rest ih =>
    unfold insertAddress
    split
    · simp
    · split
      · rename_i h; subst h; simp
      · simp [ih]; tauto

theorem insertAddress_rising {l : List Nat} (hs : l.Pairwise (fun a b => a < b)) (a : Nat) :
    (insertAddress l a).Pairwise (fun a b => a < b) := by
  induction l with
  | nil => simp [insertAddress]
  | cons b rest ih =>
    obtain ⟨hb, hrest⟩ := List.pairwise_cons.mp hs
    unfold insertAddress
    split
    · refine List.pairwise_cons.mpr ⟨fun c hc => ?_, hs⟩
      rcases List.mem_cons.mp hc with hc | hc
      · omega
      · have := hb c hc; omega
    · split
      · exact hs
      · refine List.pairwise_cons.mpr ⟨fun c hc => ?_, ih hrest⟩
        rcases mem_insertAddress.mp hc with hc | hc
        · omega
        · exact hb c hc

/-! ## Bytes after a store -/

theorem lookupCell_setCells (vs : List Byte) (cells : List Host.Cell) (hs : cells.Pairwise (fun c d => c.1 < d.1)) (a x : Nat) :
    lookupCell (setCells cells a vs) x
      = if h : a ≤ x ∧ x < a + vs.length then vs[x - a]'(by omega) else lookupCell cells x := by
  induction vs generalizing cells a with
  | nil => simp [setCells]
  | cons v vs ih =>
    rw [setCells, ih _ (setCell_rising hs a v), lookupCell_setCell cells hs]
    by_cases hx : x = a
    · subst hx; simp
    · by_cases h : a + 1 ≤ x ∧ x < a + 1 + vs.length
      · have h' : a ≤ x ∧ x < a + (v :: vs).length := by simp only [List.length_cons]; omega
        have e : x - a = (x - (a + 1)) + 1 := by omega
        simp only [h, h', and_self, ↓reduceDIte]
        simp [e]
      · have h' : ¬ (a ≤ x ∧ x < a + (v :: vs).length) := by simp only [List.length_cons]; omega
        rw [dif_neg h, dif_neg h', if_neg hx]

theorem setCells_rising (vs : List Byte) {cells : List Host.Cell} (hs : cells.Pairwise (fun c d => c.1 < d.1)) (a : Nat) :
    (setCells cells a vs).Pairwise (fun c d => c.1 < d.1) := by
  induction vs generalizing cells a with
  | nil => exact hs
  | cons v vs ih => exact ih (setCell_rising hs a v) (a + 1)

theorem mem_setCells {vs : List Byte} {cells : List Host.Cell} {a : Nat} {c : Host.Cell} (h : c ∈ setCells cells a vs) :
    c ∈ cells ∨ (c.2 ≠ 0 ∧ a ≤ c.1 ∧ c.1 < a + vs.length) := by
  induction vs generalizing cells a with
  | nil => exact .inl h
  | cons v vs ih =>
    rcases ih h with h | ⟨h1, h2, h3⟩
    · rcases mem_setCell h with h | ⟨rfl, hne⟩
      · exact .inl h
      · exact .inr ⟨hne, Nat.le_refl _, by simp⟩
    · exact .inr ⟨h1, by omega, by simp only [List.length_cons]; omega⟩

theorem byte_storeBytes {m : Memory} (hw : m.wf) (a : Nat) (vs : List Byte) (x : Nat) :
    (m.storeBytes a vs).byte x = if h : a ≤ x ∧ x < a + vs.length then vs[x - a]'(by omega) else m.byte x :=
  lookupCell_setCells vs m.cells hw.1 a x

/-- A store inside one word keeps the canonical form. -/
theorem storeBytes_wf {m : Memory} (hw : m.wf) {a : Nat} {vs : List Byte} (hin : a % 4 + vs.length ≤ 4) (ha : a < 2 ^ 32) :
    (m.storeBytes a vs).wf := by
  obtain ⟨h1, h2, h3, h4⟩ := hw
  refine ⟨setCells_rising vs h1 a, fun c hc => ?_, insertAddress_rising h3 _, fun x hx => ?_⟩
  · rcases mem_setCells hc with hc | ⟨hne, hlo, hhi⟩
    · exact ⟨(h2 c hc).1, mem_insertAddress.mpr (.inr (h2 c hc).2)⟩
    · refine ⟨hne, mem_insertAddress.mpr (.inl ?_)⟩
      omega
  · rcases mem_insertAddress.mp hx with hx | hx
    · subst hx; constructor <;> omega
    · exact h4 x hx

/-! ## Reads and writes of the three widths -/

theorem write_wf {m : Memory} (hw : m.wf) {w : Width} {a : Nat} (v : Word) (hal : a % w.bytes = 0) (ha : a < 2 ^ 32) :
    (m.write w a v).wf := by
  cases w <;> refine storeBytes_wf hw ?_ ha <;> simp [Width.bytes, bytesOfWord] at * <;> omega

theorem empty_wf : Memory.empty.wf := by decide

/-- The bytes after a write: the written ones, and every other byte as before (R59, R61, R64). -/
theorem byte_write {m : Memory} (hw : m.wf) (w : Width) (a : Nat) (v : Word) (x : Nat) :
    (m.write w a v).byte x = if a ≤ x ∧ x < a + w.bytes then byteOfWord v (x - a) else m.byte x := by
  cases w
  · rw [Memory.write, byte_storeBytes hw]
    by_cases h : a ≤ x ∧ x < a + 1
    · obtain rfl : x = a := by omega
      simp [Width.bytes]
    · rw [dif_neg (by simpa using h), if_neg (by simpa [Width.bytes] using h)]
  · rw [Memory.write, byte_storeBytes hw]
    by_cases h : a ≤ x ∧ x < a + 2
    · obtain rfl | rfl : x = a ∨ x = a + 1 := by omega
      · simp [Width.bytes]
      · simp [Width.bytes]
    · simp [Width.bytes, h]
  · rw [Memory.write, byte_storeBytes hw]
    by_cases h : a ≤ x ∧ x < a + 4
    · obtain rfl | rfl | rfl | rfl : x = a ∨ x = a + 1 ∨ x = a + 2 ∨ x = a + 3 := by omega
      all_goals simp [Width.bytes, bytesOfWord]
    · simp [Width.bytes, bytesOfWord, h]

/-- The words present after a write: the word written into, and those before (R59, R61). -/
theorem isPresent_write (m : Memory) (w : Width) (a : Nat) (v : Word) (x : Nat) :
    (m.write w a v).isPresent x = (decide (x = a - a % 4) || m.isPresent x) := by
  cases w <;> simp [Memory.write, Memory.storeBytes, Memory.isPresent, mem_insertAddress]

theorem present_write (m : Memory) (w : Width) (a : Nat) (v : Word) :
    (m.write w a v).present = insertAddress m.present (a - a % 4) := by
  cases w <;> rfl

/-- A word put together from its own bytes. -/
theorem wordOfBytes_byteOfWord (v : Word) :
    wordOfBytes (byteOfWord v 0) (byteOfWord v 1) (byteOfWord v 2) (byteOfWord v 3) = v := by
  unfold wordOfBytes byteOfWord
  ext i hi
  simp
  interval_cases i <;> simp [BitVec.getLsbD_eq_getElem]

/-- The round trip of R67: the word read back is the word written. -/
theorem word_write {m : Memory} (hw : m.wf) (a : Nat) (v : Word) : (m.write .word a v).word a = v := by
  rw [Memory.word]
  simp only [byte_write hw, Width.bytes]
  simp [wordOfBytes_byteOfWord]

/-! ## The access check -/

theorem regionAdmits_fetch (a : Nat) : regionAdmits a 4 .fetch = true ↔ InFetchRange a 4 := by
  simp [regionAdmits, Config.memoryMap, InFetchRange]

theorem regionAdmits_load (a : Nat) (w : Width) : regionAdmits a w.bytes .load = true ↔ InDataRange a w.bytes := by
  cases w <;> simp [regionAdmits, Config.memoryMap, InDataRange, Width.bytes] <;> omega

theorem regionAdmits_store (a : Nat) (w : Width) : regionAdmits a w.bytes .store = true ↔ InDataRange a w.bytes := by
  cases w <;> simp [regionAdmits, Config.memoryMap, InDataRange, Width.bytes] <;> omega

/-- Everything the check of an access can answer (R55). -/
theorem checkAccess_cases (a : Word) (w : Width) (k : AccessKind) :
    (a.toNat % w.bytes ≠ 0 ∧ checkAccess a w k = some .addressMisaligned) ∨
    (a.toNat % w.bytes = 0 ∧ regionAdmits a.toNat w.bytes k = false ∧ checkAccess a w k = some .addressOutOfRange) ∨
    (a.toNat % w.bytes = 0 ∧ regionAdmits a.toNat w.bytes k = true ∧ checkAccess a w k = none) := by
  unfold checkAccess
  by_cases h1 : a.toNat % w.bytes = 0
  · by_cases h2 : regionAdmits a.toNat w.bytes k = true
    · exact .inr (.inr ⟨h1, h2, by simp [h1, h2]⟩)
    · exact .inr (.inl ⟨h1, by simpa using h2, by simp [h1, h2]⟩)
  · exact .inl ⟨h1, by simp [h1]⟩

theorem checkAccess_load (a : Word) (w : Width) : checkAccess a w .load = none ↔ DataAccessible a w.bytes := by
  rw [DataAccessible, ← regionAdmits_load]
  rcases checkAccess_cases a w .load with ⟨h, e⟩ | ⟨h, h', e⟩ | ⟨h, h', e⟩ <;> simp [h, e] <;> simp [h']

theorem checkAccess_store (a : Word) (w : Width) : checkAccess a w .store = none ↔ DataAccessible a w.bytes := by
  rw [DataAccessible, ← regionAdmits_store]
  rcases checkAccess_cases a w .store with ⟨h, e⟩ | ⟨h, h', e⟩ | ⟨h, h', e⟩ <;> simp [h, e] <;> simp [h']

theorem checkAccess_fetch (s : State) : checkAccess s.pc .word .fetch = none ↔ Fetchable s := by
  rw [Fetchable, ← regionAdmits_fetch]
  rcases checkAccess_cases s.pc .word .fetch with ⟨h, e⟩ | ⟨h, h', e⟩ | ⟨h, h', e⟩ <;>
    simp only [Width.bytes] at h <;> simp [h, e]
  all_goals simpa [Width.bytes] using h'

theorem fetch_eq {s : State} (h : Fetchable s) : fetch s = .ok (s.mem.word s.pc.toNat) := by
  simp [fetch, (checkAccess_fetch s).mpr h]

end Sys2Proof.Machine
end

