-- ==== Sys2Proof/Laws/Outcomes.lean ====
section
/-! SUPPORT. Once for each shared operation, everything it can do: the ends of the instruction families, the core step, the step
boundary and the step. Later proofs cite these and unfold none of them. -/

namespace Sys2Proof.Machine

/-! ## Ends of instructions -/

theorem writeResult_eq (rd : RegIdx) (v : Word) (s : State) : writeResult rd v s = .next (s.setReg rd v).advance := rfl

theorem writeHiLo_eq (h l : Word) (s : State) : writeHiLo h l s = .next (s.setHiLo h l).advance := rfl

theorem divByZero_eq (s : State) : divByZero s = .next s.advance := rfl

/-- An exact result is written if it fits and raises ArithmeticOverflow otherwise (R141). -/
theorem writeOrOverflow_cases (rd : RegIdx) (v : Int) (s : State) :
    (-2 ^ 31 ≤ v ∧ v < 2 ^ 31 ∧ writeOrOverflow rd v s = .next (s.setReg rd (BitVec.ofInt 32 v)).advance) ∨
    ((v < -2 ^ 31 ∨ 2 ^ 31 ≤ v) ∧ writeOrOverflow rd v s = .next (raiseFault .arithmeticOverflow s.pc s)) := by
  unfold writeOrOverflow
  by_cases h : overflowsSigned v = true
  · refine .inr ⟨?_, by rw [if_pos h]⟩
    simp [overflowsSigned] at h
    omega
  · have h' := h
    simp [overflowsSigned] at h'
    exact .inl ⟨by omega, by omega, by rw [if_neg h, writeResult_eq]⟩

theorem branchIf_cases (c : Bool) (imm : BitVec 16) (s : State) :
    (c = true ∧ branchIf c imm s = .next (s.redirect (branchTarget s imm))) ∨
    (c = false ∧ branchIf c imm s = .next s.advance) := by
  cases c <;> simp [branchIf]

theorem callTo_eq (link : RegIdx) (a : Word) (s : State) :
    callTo link a s = .next ((s.setReg link s.nextPc).redirect a) := rfl

/-- A load raises the fault of its check at the effective address, or writes its register (R190). -/
theorem loadInto_cases (w : Width) (ext : Word → Word) (rt : RegIdx) (imm : BitVec 16) (rs : RegIdx) (s : State) :
    (∃ k, checkAccess (effectiveAddress s rs imm) w .load = some k ∧
      loadInto w ext rt imm rs s = .next (raiseFault k (effectiveAddress s rs imm) s)) ∨
    (DataAccessible (effectiveAddress s rs imm) w.bytes ∧ loadInto w ext rt imm rs s
      = .next (s.setReg rt (ext (s.mem.read w (effectiveAddress s rs imm).toNat))).advance) := by
  cases h : checkAccess (effectiveAddress s rs imm) w .load with
  | some k => exact .inl ⟨k, rfl, by simp [loadInto, h]⟩
  | none => exact .inr ⟨(checkAccess_load _ w).mp h, by simp [loadInto, h]⟩

/-- A store raises the fault of its check at the effective address, or writes memory (R190). -/
theorem storeFrom_cases (w : Width) (rt : RegIdx) (imm : BitVec 16) (rs : RegIdx) (s : State) :
    (∃ k, checkAccess (effectiveAddress s rs imm) w .store = some k ∧
      storeFrom w rt imm rs s = .next (raiseFault k (effectiveAddress s rs imm) s)) ∨
    (DataAccessible (effectiveAddress s rs imm) w.bytes ∧ storeFrom w rt imm rs s
      = .next (s.setMem (s.mem.write w (effectiveAddress s rs imm).toNat (s.reg rt))).advance) := by
  cases h : checkAccess (effectiveAddress s rs imm) w .store with
  | some k => exact .inl ⟨k, rfl, by simp [storeFrom, h]⟩
  | none => exact .inr ⟨(checkAccess_store _ w).mp h, by simp [storeFrom, h]⟩

/-! ## The core step -/

/-- Everything a core step of a running machine can do (R230): a fetch fault, a decode fault, or the decoded instruction. -/
theorem coreStep_cases {s : State} (hr : s.runState = .running) :
    (∃ k, fetch s = .error k ∧ coreStep s = .next (raiseFault k s.pc s)) ∨
    (∃ w e, fetch s = .ok w ∧ decodeWord w = .error e ∧ coreStep s = .next (raiseFault .invalidInstruction s.pc s)) ∨
    (∃ w i, fetch s = .ok w ∧ decodeWord w = .ok i ∧ coreStep s = exec i s) := by
  unfold coreStep
  rw [if_pos hr]
  cases hf : fetch s with
  | error k => exact .inl ⟨k, rfl, rfl⟩
  | ok w =>
    cases hd : decodeWord w with
    | error e => exact .inr (.inl ⟨w, e, rfl, hd, by simp [hd]⟩)
    | ok i => exact .inr (.inr ⟨w, i, rfl, hd, by simp [hd]⟩)

/-! ## The step boundary -/

/-- What the controller's count and the arriving requests leave of a state: everything but three fields. -/
theorem boundary_input_regs (s : State) : (takeSignals (countStep s)).regs = s.regs := by simp

/-- Everything a step boundary can do after a completed core step (R245, R249). -/
theorem boundaryTests_cases (s : State) :
    (limitReached s = true ∧ boundaryTests s = endInvocation .paused .stepLimit s) ∨
    (limitReached s = false ∧ breakpointHit s = true ∧ boundaryTests s = endInvocation .paused .breakpoint s) ∨
    (limitReached s = false ∧ breakpointHit s = false ∧ s.stopReq = true ∧
      boundaryTests s = endInvocation .terminated .stop s) ∨
    (limitReached s = false ∧ breakpointHit s = false ∧ s.stopReq = false ∧ s.pauseReq = true ∧
      boundaryTests s = endInvocation .paused .pause s) ∨
    (limitReached s = false ∧ breakpointHit s = false ∧ s.stopReq = false ∧ s.pauseReq = false ∧ boundaryTests s = s) := by
  unfold boundaryTests
  cases limitReached s <;> cases breakpointHit s <;> cases s.stopReq <;> cases s.pauseReq <;> simp

theorem stepBoundary_running {s : State} (h : s.runState = .running) :
    stepBoundary s = boundaryTests (takeSignals (countStep s)) := by simp [stepBoundary, h]

theorem stepBoundary_ended {s : State} (h : s.runState ≠ .running) : stepBoundary s = s := by simp [stepBoundary, h]

/-- The controller leaves the hardware block as it is (R240). -/
theorem stepBoundary_block (s : State) :
    (stepBoundary s).regs = s.regs ∧ (stepBoundary s).pc = s.pc ∧ (stepBoundary s).hi = s.hi ∧
    (stepBoundary s).lo = s.lo ∧ (stepBoundary s).mem = s.mem ∧ (stepBoundary s).faultRecord = s.faultRecord := by
  by_cases h : s.runState = .running
  · rw [stepBoundary_running h]
    rcases boundaryTests_cases (takeSignals (countStep s)) with ⟨_, e⟩ | ⟨_, _, e⟩ | ⟨_, _, _, e⟩ | ⟨_, _, _, _, e⟩ | ⟨_, _, _, _, e⟩ <;>
      simp [e]
  · simp [stepBoundary_ended h]

/-! ## The step -/

theorem step_running {s : State} (h : s.runState = .running) {t : State} (hc : coreStep s = .next t) :
    step s = .next (stepBoundary t) := by simp [step, h, hc]

theorem step_stopped {s : State} (h : s.runState ≠ .running) : step s = .next s := by simp [step, h]

/-! ## The breakpoint set -/

theorem mem_insertBreakpoint {l : List Word} {a x : Word} : x ∈ insertBreakpoint l a ↔ x = a ∨ x ∈ l := by
  induction l with
  | nil => simp [insertBreakpoint]
  | cons b rest ih =>
    unfold insertBreakpoint
    split
    · simp
    · split
      · rename_i h; subst h; simp
      · simp [ih]; tauto

theorem insertBreakpoint_ascending {l : List Word} (hs : l.Pairwise (fun a b => a.toNat < b.toNat)) (a : Word) :
    (insertBreakpoint l a).Pairwise (fun a b => a.toNat < b.toNat) := by
  induction l with
  | nil => simp [insertBreakpoint]
  | cons b rest ih =>
    obtain ⟨hb, hrest⟩ := List.pairwise_cons.mp hs
    unfold insertBreakpoint
    split
    · rename_i hab
      refine List.pairwise_cons.mpr ⟨fun c hc => ?_, hs⟩
      rcases List.mem_cons.mp hc with hc | hc
      · rw [hc]; exact hab
      · have := hb c hc; omega
    · split
      · exact hs
      · rename_i hlt hne
        refine List.pairwise_cons.mpr ⟨fun c hc => ?_, ih hrest⟩
        rcases mem_insertBreakpoint.mp hc with hc | hc
        · subst hc
          have : c.toNat ≠ b.toNat := fun h => hne (BitVec.eq_of_toNat_eq h)
          omega
        · exact hb c hc

theorem mem_foldl_insertBreakpoint (l acc : List Word) (x : Word) : x ∈ l.foldl insertBreakpoint acc ↔ x ∈ l ∨ x ∈ acc := by
  induction l generalizing acc with
  | nil => simp
  | cons b rest ih => simp [ih, mem_insertBreakpoint]; tauto

/-- The set has exactly the given members (R244). -/
theorem mem_breakpointSet {l : List Word} {x : Word} : x ∈ breakpointSet l ↔ x ∈ l := by
  simp [breakpointSet, mem_foldl_insertBreakpoint]

theorem foldl_insertBreakpoint_ascending (l : List Word) {acc : List Word} (h : acc.Pairwise (fun a b => a.toNat < b.toNat)) :
    (l.foldl insertBreakpoint acc).Pairwise (fun a b => a.toNat < b.toNat) := by
  induction l generalizing acc with
  | nil => exact h
  | cons b rest ih => exact ih (insertBreakpoint_ascending h b)

/-- The set is ascending without repeats (R244). -/
theorem breakpointSet_ascending (l : List Word) : (breakpointSet l).Pairwise (fun a b => a.toNat < b.toNat) :=
  foldl_insertBreakpoint_ascending l List.Pairwise.nil

/-! ## The image's memory -/

theorem foldl_write_wf (ps : List (Word × Word)) {m : Memory} (hw : m.wf) (h : ∀ p ∈ ps, p.1.toNat % 4 = 0) :
    (ps.foldl (fun m p => m.write .word p.1.toNat p.2) m).wf := by
  induction ps generalizing m with
  | nil => exact hw
  | cons p ps ih =>
    exact ih (write_wf hw p.2 (h p (by simp)) p.1.isLt) (fun q hq => h q (by simp [hq]))

/-- `load` of an image that keeps R280 leaves memory in its canonical form. -/
theorem imageMemory_wf {ps : List (Word × Word)} (h : ∀ p ∈ ps, p.1.toNat % 4 = 0) : (imageMemory ps).wf :=
  foldl_write_wf ps empty_wf h

end Sys2Proof.Machine
end

