-- ==== Sys2Proof/Laws/PerInstr.lean ====
section
/-! SUPPORT. Statements about every instruction as syntax, one lemma for each constructor. -/

namespace Sys2Proof.Laws

/-- The instruction's mnemonic names exactly one row of the table (R104), and that row has the instruction's category (R103). -/
def HasRow.Statement (i : Instr) : Prop :=
  ((haltRow :: opcodeRows).filter (fun r => r.mnemonic == i.mnemonic)).map Row.category = [i.category]

theorem HasRow.halt : HasRow.Statement (.halt) := by
  show ((haltRow :: opcodeRows).filter (fun r => r.mnemonic == "halt")).map Row.category = [.system]
  decide

theorem HasRow.syscall : HasRow.Statement (.syscall) := by
  show ((haltRow :: opcodeRows).filter (fun r => r.mnemonic == "syscall")).map Row.category = [.system]
  decide

theorem HasRow.break_ (code : BitVec 20) : HasRow.Statement (.break_ code) := by
  show ((haltRow :: opcodeRows).filter (fun r => r.mnemonic == "break")).map Row.category = [.system]
  decide

theorem HasRow.sll (rd rt : RegIdx) (sa : BitVec 5) : HasRow.Statement (.sll rd rt sa) := by
  show ((haltRow :: opcodeRows).filter (fun r => r.mnemonic == "sll")).map Row.category = [.arithmetic]
  decide

theorem HasRow.srl (rd rt : RegIdx) (sa : BitVec 5) : HasRow.Statement (.srl rd rt sa) := by
  show ((haltRow :: opcodeRows).filter (fun r => r.mnemonic == "srl")).map Row.category = [.arithmetic]
  decide

theorem HasRow.sra (rd rt : RegIdx) (sa : BitVec 5) : HasRow.Statement (.sra rd rt sa) := by
  show ((haltRow :: opcodeRows).filter (fun r => r.mnemonic == "sra")).map Row.category = [.arithmetic]
  decide

theorem HasRow.sllv (rd rt rs : RegIdx) : HasRow.Statement (.sllv rd rt rs) := by
  show ((haltRow :: opcodeRows).filter (fun r => r.mnemonic == "sllv")).map Row.category = [.arithmetic]
  decide

theorem HasRow.srlv (rd rt rs : RegIdx) : HasRow.Statement (.srlv rd rt rs) := by
  show ((haltRow :: opcodeRows).filter (fun r => r.mnemonic == "srlv")).map Row.category = [.arithmetic]
  decide

theorem HasRow.srav (rd rt rs : RegIdx) : HasRow.Statement (.srav rd rt rs) := by
  show ((haltRow :: opcodeRows).filter (fun r => r.mnemonic == "srav")).map Row.category = [.arithmetic]
  decide

theorem HasRow.jr (rs : RegIdx) : HasRow.Statement (.jr rs) := by
  show ((haltRow :: opcodeRows).filter (fun r => r.mnemonic == "jr")).map Row.category = [.branch]
  decide

theorem HasRow.jalr (rd rs : RegIdx) : HasRow.Statement (.jalr rd rs) := by
  show ((haltRow :: opcodeRows).filter (fun r => r.mnemonic == "jalr")).map Row.category = [.call]
  decide

theorem HasRow.mfhi (rd : RegIdx) : HasRow.Statement (.mfhi rd) := by
  show ((haltRow :: opcodeRows).filter (fun r => r.mnemonic == "mfhi")).map Row.category = [.arithmetic]
  decide

theorem HasRow.mflo (rd : RegIdx) : HasRow.Statement (.mflo rd) := by
  show ((haltRow :: opcodeRows).filter (fun r => r.mnemonic == "mflo")).map Row.category = [.arithmetic]
  decide

theorem HasRow.mthi (rs : RegIdx) : HasRow.Statement (.mthi rs) := by
  show ((haltRow :: opcodeRows).filter (fun r => r.mnemonic == "mthi")).map Row.category = [.arithmetic]
  decide

theorem HasRow.mtlo (rs : RegIdx) : HasRow.Statement (.mtlo rs) := by
  show ((haltRow :: opcodeRows).filter (fun r => r.mnemonic == "mtlo")).map Row.category = [.arithmetic]
  decide

theorem HasRow.mult (rs rt : RegIdx) : HasRow.Statement (.mult rs rt) := by
  show ((haltRow :: opcodeRows).filter (fun r => r.mnemonic == "mult")).map Row.category = [.arithmetic]
  decide

theorem HasRow.multu (rs rt : RegIdx) : HasRow.Statement (.multu rs rt) := by
  show ((haltRow :: opcodeRows).filter (fun r => r.mnemonic == "multu")).map Row.category = [.arithmetic]
  decide

theorem HasRow.div (rs rt : RegIdx) : HasRow.Statement (.div rs rt) := by
  show ((haltRow :: opcodeRows).filter (fun r => r.mnemonic == "div")).map Row.category = [.arithmetic]
  decide

theorem HasRow.divu (rs rt : RegIdx) : HasRow.Statement (.divu rs rt) := by
  show ((haltRow :: opcodeRows).filter (fun r => r.mnemonic == "divu")).map Row.category = [.arithmetic]
  decide

theorem HasRow.add (rd rs rt : RegIdx) : HasRow.Statement (.add rd rs rt) := by
  show ((haltRow :: opcodeRows).filter (fun r => r.mnemonic == "add")).map Row.category = [.arithmetic]
  decide

theorem HasRow.addu (rd rs rt : RegIdx) : HasRow.Statement (.addu rd rs rt) := by
  show ((haltRow :: opcodeRows).filter (fun r => r.mnemonic == "addu")).map Row.category = [.arithmetic]
  decide

theorem HasRow.sub (rd rs rt : RegIdx) : HasRow.Statement (.sub rd rs rt) := by
  show ((haltRow :: opcodeRows).filter (fun r => r.mnemonic == "sub")).map Row.category = [.arithmetic]
  decide

theorem HasRow.subu (rd rs rt : RegIdx) : HasRow.Statement (.subu rd rs rt) := by
  show ((haltRow :: opcodeRows).filter (fun r => r.mnemonic == "subu")).map Row.category = [.arithmetic]
  decide

theorem HasRow.and (rd rs rt : RegIdx) : HasRow.Statement (.and rd rs rt) := by
  show ((haltRow :: opcodeRows).filter (fun r => r.mnemonic == "and")).map Row.category = [.arithmetic]
  decide

theorem HasRow.or (rd rs rt : RegIdx) : HasRow.Statement (.or rd rs rt) := by
  show ((haltRow :: opcodeRows).filter (fun r => r.mnemonic == "or")).map Row.category = [.arithmetic]
  decide

theorem HasRow.xor (rd rs rt : RegIdx) : HasRow.Statement (.xor rd rs rt) := by
  show ((haltRow :: opcodeRows).filter (fun r => r.mnemonic == "xor")).map Row.category = [.arithmetic]
  decide

theorem HasRow.nor (rd rs rt : RegIdx) : HasRow.Statement (.nor rd rs rt) := by
  show ((haltRow :: opcodeRows).filter (fun r => r.mnemonic == "nor")).map Row.category = [.arithmetic]
  decide

theorem HasRow.slt (rd rs rt : RegIdx) : HasRow.Statement (.slt rd rs rt) := by
  show ((haltRow :: opcodeRows).filter (fun r => r.mnemonic == "slt")).map Row.category = [.arithmetic]
  decide

theorem HasRow.sltu (rd rs rt : RegIdx) : HasRow.Statement (.sltu rd rs rt) := by
  show ((haltRow :: opcodeRows).filter (fun r => r.mnemonic == "sltu")).map Row.category = [.arithmetic]
  decide

theorem HasRow.bltz (rs : RegIdx) (imm : BitVec 16) : HasRow.Statement (.bltz rs imm) := by
  show ((haltRow :: opcodeRows).filter (fun r => r.mnemonic == "bltz")).map Row.category = [.branch]
  decide

theorem HasRow.bgez (rs : RegIdx) (imm : BitVec 16) : HasRow.Statement (.bgez rs imm) := by
  show ((haltRow :: opcodeRows).filter (fun r => r.mnemonic == "bgez")).map Row.category = [.branch]
  decide

theorem HasRow.j (target : BitVec 26) : HasRow.Statement (.j target) := by
  show ((haltRow :: opcodeRows).filter (fun r => r.mnemonic == "j")).map Row.category = [.branch]
  decide

theorem HasRow.jal (target : BitVec 26) : HasRow.Statement (.jal target) := by
  show ((haltRow :: opcodeRows).filter (fun r => r.mnemonic == "jal")).map Row.category = [.call]
  decide

theorem HasRow.beq (rs rt : RegIdx) (imm : BitVec 16) : HasRow.Statement (.beq rs rt imm) := by
  show ((haltRow :: opcodeRows).filter (fun r => r.mnemonic == "beq")).map Row.category = [.branch]
  decide

theorem HasRow.bne (rs rt : RegIdx) (imm : BitVec 16) : HasRow.Statement (.bne rs rt imm) := by
  show ((haltRow :: opcodeRows).filter (fun r => r.mnemonic == "bne")).map Row.category = [.branch]
  decide

theorem HasRow.blez (rs : RegIdx) (imm : BitVec 16) : HasRow.Statement (.blez rs imm) := by
  show ((haltRow :: opcodeRows).filter (fun r => r.mnemonic == "blez")).map Row.category = [.branch]
  decide

theorem HasRow.bgtz (rs : RegIdx) (imm : BitVec 16) : HasRow.Statement (.bgtz rs imm) := by
  show ((haltRow :: opcodeRows).filter (fun r => r.mnemonic == "bgtz")).map Row.category = [.branch]
  decide

theorem HasRow.addi (rt rs : RegIdx) (imm : BitVec 16) : HasRow.Statement (.addi rt rs imm) := by
  show ((haltRow :: opcodeRows).filter (fun r => r.mnemonic == "addi")).map Row.category = [.arithmetic]
  decide

theorem HasRow.addiu (rt rs : RegIdx) (imm : BitVec 16) : HasRow.Statement (.addiu rt rs imm) := by
  show ((haltRow :: opcodeRows).filter (fun r => r.mnemonic == "addiu")).map Row.category = [.arithmetic]
  decide

theorem HasRow.slti (rt rs : RegIdx) (imm : BitVec 16) : HasRow.Statement (.slti rt rs imm) := by
  show ((haltRow :: opcodeRows).filter (fun r => r.mnemonic == "slti")).map Row.category = [.arithmetic]
  decide

theorem HasRow.sltiu (rt rs : RegIdx) (imm : BitVec 16) : HasRow.Statement (.sltiu rt rs imm) := by
  show ((haltRow :: opcodeRows).filter (fun r => r.mnemonic == "sltiu")).map Row.category = [.arithmetic]
  decide

theorem HasRow.andi (rt rs : RegIdx) (imm : BitVec 16) : HasRow.Statement (.andi rt rs imm) := by
  show ((haltRow :: opcodeRows).filter (fun r => r.mnemonic == "andi")).map Row.category = [.arithmetic]
  decide

theorem HasRow.ori (rt rs : RegIdx) (imm : BitVec 16) : HasRow.Statement (.ori rt rs imm) := by
  show ((haltRow :: opcodeRows).filter (fun r => r.mnemonic == "ori")).map Row.category = [.arithmetic]
  decide

theorem HasRow.xori (rt rs : RegIdx) (imm : BitVec 16) : HasRow.Statement (.xori rt rs imm) := by
  show ((haltRow :: opcodeRows).filter (fun r => r.mnemonic == "xori")).map Row.category = [.arithmetic]
  decide

theorem HasRow.lui (rt : RegIdx) (imm : BitVec 16) : HasRow.Statement (.lui rt imm) := by
  show ((haltRow :: opcodeRows).filter (fun r => r.mnemonic == "lui")).map Row.category = [.arithmetic]
  decide

theorem HasRow.lb (rt : RegIdx) (imm : BitVec 16) (rs : RegIdx) : HasRow.Statement (.lb rt imm rs) := by
  show ((haltRow :: opcodeRows).filter (fun r => r.mnemonic == "lb")).map Row.category = [.memory]
  decide

theorem HasRow.lh (rt : RegIdx) (imm : BitVec 16) (rs : RegIdx) : HasRow.Statement (.lh rt imm rs) := by
  show ((haltRow :: opcodeRows).filter (fun r => r.mnemonic == "lh")).map Row.category = [.memory]
  decide

theorem HasRow.lw (rt : RegIdx) (imm : BitVec 16) (rs : RegIdx) : HasRow.Statement (.lw rt imm rs) := by
  show ((haltRow :: opcodeRows).filter (fun r => r.mnemonic == "lw")).map Row.category = [.memory]
  decide

theorem HasRow.lbu (rt : RegIdx) (imm : BitVec 16) (rs : RegIdx) : HasRow.Statement (.lbu rt imm rs) := by
  show ((haltRow :: opcodeRows).filter (fun r => r.mnemonic == "lbu")).map Row.category = [.memory]
  decide

theorem HasRow.lhu (rt : RegIdx) (imm : BitVec 16) (rs : RegIdx) : HasRow.Statement (.lhu rt imm rs) := by
  show ((haltRow :: opcodeRows).filter (fun r => r.mnemonic == "lhu")).map Row.category = [.memory]
  decide

theorem HasRow.sb (rt : RegIdx) (imm : BitVec 16) (rs : RegIdx) : HasRow.Statement (.sb rt imm rs) := by
  show ((haltRow :: opcodeRows).filter (fun r => r.mnemonic == "sb")).map Row.category = [.memory]
  decide

theorem HasRow.sh (rt : RegIdx) (imm : BitVec 16) (rs : RegIdx) : HasRow.Statement (.sh rt imm rs) := by
  show ((haltRow :: opcodeRows).filter (fun r => r.mnemonic == "sh")).map Row.category = [.memory]
  decide

theorem HasRow.sw (rt : RegIdx) (imm : BitVec 16) (rs : RegIdx) : HasRow.Statement (.sw rt imm rs) := by
  show ((haltRow :: opcodeRows).filter (fun r => r.mnemonic == "sw")).map Row.category = [.memory]
  decide

end Sys2Proof.Laws
end

