-- ==== Sys2Proof/Listing.lean ====
section
/-! DEFINITION. The notation of the spec's listings: register names (R22), the label fields an assembler fills in (R108) and the
pseudo-instructions (R109). The hardware knows none of this; the assembler is outside the block (R4). -/

namespace Sys2Proof.Listing

/-- The assembler names of registers 0..31 (R22). -/
def registerNames : List String :=
  ["$zero", "$at", "$v0", "$v1", "$a0", "$a1", "$a2", "$a3"] ++
  ["$t0", "$t1", "$t2", "$t3", "$t4", "$t5", "$t6", "$t7"] ++
  ["$s0", "$s1", "$s2", "$s3", "$s4", "$s5", "$s6", "$s7"] ++
  ["$t8", "$t9", "$k0", "$k1", "$gp", "$sp", "$fp", "$ra"]

/-- The name of a register (R22). -/
def registerName (r : RegIdx) : String := registerNames.getD r.val ""

/-- The offset field of a branch at `address` to `label`: `(label - (address + 4)) / 4` (R108). -/
def branchField (address label : Word) : BitVec 16 :=
  ((label - (address + 4)).sshiftRight 2).setWidth 16

/-- The target field of a `j` or `jal` to `label`: `label[27:2]` (R108). -/
def targetField (label : Word) : BitVec 26 := label.extractLsb' 2 26

/-- The pseudo-instructions of R109. -/
inductive Pseudo where
  | nop
  | move (rd rs : RegIdx)
  | li (rt : RegIdx) (v : Int)
  | la (rt : RegIdx) (label : Word)
  | b (imm : BitVec 16)
  | exit
  deriving DecidableEq, Repr

/-- A 32-bit constant in two instructions, through register 1 (R109). -/
def loadConstant (rt : RegIdx) (v : Word) : List Instr :=
  [.lui 1 (v.extractLsb' 16 16), .ori rt 1 (v.extractLsb' 0 16)]

/-- The baseline instructions a pseudo-instruction stands for (R109). -/
def Pseudo.expand (p : Pseudo) : List Instr :=
  match p with
  | .nop => [.or 0 0 0]
  | .move rd rs => [.addu rd 0 rs]
  | .li rt v =>
    if -32768 ≤ v ∧ v ≤ 32767 then [.addiu rt 0 (BitVec.ofInt 16 v)]
    else if 0 ≤ v ∧ v ≤ 65535 then [.ori rt 0 (BitVec.ofInt 16 v)]
    else loadConstant rt (BitVec.ofInt 32 v)
  | .la rt label => loadConstant rt label
  | .b imm => [.beq 0 0 imm]
  | .exit => [.addiu 2 0 10, .syscall]

end Sys2Proof.Listing
end

