-- ==== Sys2Proof/Tests/Slice0.lean ====
section
/-! SUPPORT. The model's own tests. Words and expected results are those of spec 95_test_vectors.md (the row is named at each
test) or are worked out by hand from the rule named there; none is the model's own answer. The second half holds, for each
obligation with hypotheses, a concrete state and operands that meet them. -/

namespace Sys2Proof.Tests

open Sys2Proof.Machine

/-! ## Helpers -/

/-- Registers set one after another. -/
def withRegs (s : State) (rs : List (RegIdx × Word)) : State := rs.foldl (fun s p => s.setReg p.1 p.2) s

/-- The reset state, running, with `pc` and the word there as given, and some registers set. -/
def place (pc w : Word) (rs : List (RegIdx × Word)) : State :=
  withRegs { State.reset with pc := pc, mem := Memory.empty.write .word pc.toNat w, runState := .running } rs

/-- The state of section 2.4 rows 1 to 23: two data words, `$t1` at the first of them, and the given word at `pc`. -/
def placeData (w : Word) (rs : List (RegIdx × Word)) : State :=
  let s := place 0x00400000 w ((9, 0x10010000) :: rs)
  { s with mem := (s.mem.write .word 0x10010000 0x8899aabb).write .word 0x10010004 0x11223344 }

/-- What an observation sees after one step. -/
def after {α : Type} (s : State) (look : State → α) : Option α :=
  match step s with
  | .next t => some (look t)
  | .fault _ => none
  | .refused _ => none

/-- The recorded fault without its opaque message. -/
def recorded (s : State) : Option (FaultKind × Word) := s.faultRecord.map fun f => (f.kind, f.faultingAddress)

/-! ## WellFormed: the one check it makes (R105) -/

/-- `sll $zero, $zero, 0` is no instruction: its word is the sentinel. -/
theorem test_wellFormed_refuses_zero_sll : (Instr.sll 0 0 0).wellFormed = false := by decide

/-- Only the all-zero word is excluded from `sll` (95 2.6). -/
theorem test_wellFormed_accepts_other_sll :
    (Instr.sll 0 0 1).wellFormed = true ∧ (Instr.sll 1 0 0).wellFormed = true ∧ (Instr.sll 0 1 0).wellFormed = true := by decide

/-! ## Decoding: words written out bit by bit from the encoding lines of the rules -/

/-- R161 to R166. -/
theorem test_decode_shifts :
    decodeWord 0b000000_00000_01010_01000_00100_000000 = .ok (.sll 8 10 4) ∧
    decodeWord 0b000000_00000_01010_01000_00100_000010 = .ok (.srl 8 10 4) ∧
    decodeWord 0b000000_00000_01010_01000_00100_000011 = .ok (.sra 8 10 4) ∧
    decodeWord 0b000000_01001_01010_01000_00000_000100 = .ok (.sllv 8 10 9) ∧
    decodeWord 0b000000_01001_01010_01000_00000_000110 = .ok (.srlv 8 10 9) ∧
    decodeWord 0b000000_01001_01010_01000_00000_000111 = .ok (.srav 8 10 9) := by decide

/-- R138, R122, R211, R212, R105. -/
theorem test_decode_register_jumps_and_system :
    decodeWord 0b000000_01001_00000_00000_00000_001000 = .ok (.jr 9) ∧
    decodeWord 0b000000_01001_00000_01000_00000_001001 = .ok (.jalr 8 9) ∧
    decodeWord 0b000000_00000_00000_00000_00000_001100 = .ok .syscall ∧
    decodeWord 0b000000_00000000000000000111_001101 = .ok (.break_ 7) ∧
    decodeWord 0b000000_00000000000000000000_000000 = .ok .halt := by decide

/-- R169 to R176. -/
theorem test_decode_hi_lo :
    decodeWord 0b000000_00000_00000_01000_00000_010000 = .ok (.mfhi 8) ∧
    decodeWord 0b000000_01001_00000_00000_00000_010001 = .ok (.mthi 9) ∧
    decodeWord 0b000000_00000_00000_01000_00000_010010 = .ok (.mflo 8) ∧
    decodeWord 0b000000_01001_00000_00000_00000_010011 = .ok (.mtlo 9) ∧
    decodeWord 0b000000_01001_01010_00000_00000_011000 = .ok (.mult 9 10) ∧
    decodeWord 0b000000_01001_01010_00000_00000_011001 = .ok (.multu 9 10) ∧
    decodeWord 0b000000_01001_01010_00000_00000_011010 = .ok (.div 9 10) ∧
    decodeWord 0b000000_01001_01010_00000_00000_011011 = .ok (.divu 9 10) := by decide

/-- R141 to R150. -/
theorem test_decode_alu :
    decodeWord 0b000000_01001_01010_01000_00000_100000 = .ok (.add 8 9 10) ∧
    decodeWord 0b000000_01001_01010_01000_00000_100001 = .ok (.addu 8 9 10) ∧
    decodeWord 0b000000_01001_01010_01000_00000_100010 = .ok (.sub 8 9 10) ∧
    decodeWord 0b000000_01001_01010_01000_00000_100011 = .ok (.subu 8 9 10) ∧
    decodeWord 0b000000_01001_01010_01000_00000_100100 = .ok (.and 8 9 10) ∧
    decodeWord 0b000000_01001_01010_01000_00000_100101 = .ok (.or 8 9 10) ∧
    decodeWord 0b000000_01001_01010_01000_00000_100110 = .ok (.xor 8 9 10) ∧
    decodeWord 0b000000_01001_01010_01000_00000_100111 = .ok (.nor 8 9 10) ∧
    decodeWord 0b000000_01001_01010_01000_00000_101010 = .ok (.slt 8 9 10) ∧
    decodeWord 0b000000_01001_01010_01000_00000_101011 = .ok (.sltu 8 9 10) := by decide

/-- R131 to R136. -/
theorem test_decode_branches :
    decodeWord 0b000001_01001_00000_1000000000000110 = .ok (.bltz 9 0x8006) ∧
    decodeWord 0b000001_01001_00001_1000000000000110 = .ok (.bgez 9 0x8006) ∧
    decodeWord 0b000100_01001_01010_1000000000000110 = .ok (.beq 9 10 0x8006) ∧
    decodeWord 0b000101_01001_01010_1000000000000110 = .ok (.bne 9 10 0x8006) ∧
    decodeWord 0b000110_01001_00000_1000000000000110 = .ok (.blez 9 0x8006) ∧
    decodeWord 0b000111_01001_00000_1000000000000110 = .ok (.bgtz 9 0x8006) := by decide

/-- R137, R121. -/
theorem test_decode_jumps :
    decodeWord 0b000010_10000000000000000000000001 = .ok (.j 0x2000001) ∧
    decodeWord 0b000011_10000000000000000000000001 = .ok (.jal 0x2000001) := by decide

/-- R151 to R158. -/
theorem test_decode_immediates :
    decodeWord 0b001000_01001_01010_1000000000000110 = .ok (.addi 10 9 0x8006) ∧
    decodeWord 0b001001_01001_01010_1000000000000110 = .ok (.addiu 10 9 0x8006) ∧
    decodeWord 0b001010_01001_01010_1000000000000110 = .ok (.slti 10 9 0x8006) ∧
    decodeWord 0b001011_01001_01010_1000000000000110 = .ok (.sltiu 10 9 0x8006) ∧
    decodeWord 0b001100_01001_01010_1000000000000110 = .ok (.andi 10 9 0x8006) ∧
    decodeWord 0b001101_01001_01010_1000000000000110 = .ok (.ori 10 9 0x8006) ∧
    decodeWord 0b001110_01001_01010_1000000000000110 = .ok (.xori 10 9 0x8006) ∧
    decodeWord 0b001111_00000_01010_1000000000000110 = .ok (.lui 10 0x8006) := by decide

/-- R191 to R198. -/
theorem test_decode_loads_and_stores :
    decodeWord 0b100000_01001_01010_1000000000000110 = .ok (.lb 10 0x8006 9) ∧
    decodeWord 0b100001_01001_01010_1000000000000110 = .ok (.lh 10 0x8006 9) ∧
    decodeWord 0b100011_01001_01010_1000000000000110 = .ok (.lw 10 0x8006 9) ∧
    decodeWord 0b100100_01001_01010_1000000000000110 = .ok (.lbu 10 0x8006 9) ∧
    decodeWord 0b100101_01001_01010_1000000000000110 = .ok (.lhu 10 0x8006 9) ∧
    decodeWord 0b101000_01001_01010_1000000000000110 = .ok (.sb 10 0x8006 9) ∧
    decodeWord 0b101001_01001_01010_1000000000000110 = .ok (.sh 10 0x8006 9) ∧
    decodeWord 0b101011_01001_01010_1000000000000110 = .ok (.sw 10 0x8006 9) := by decide

/-- The invalid words of 95 2.6. -/
theorem test_decode_invalid :
    [0x00000001, 0x00200000, 0x012a4060, 0x03e00408, 0x00200010, 0x01200811, 0x012a0818, 0x0000000f, 0x0000004c, 0x04100000, 0x04020000, 0x18010000, 0x1c010000].all (fun w => decodeWord w == .error .invalidInstruction) ∧
    [0x3c200000, 0x40000000, 0x44000000, 0x70000000, 0x7c000000, 0x88000000, 0x98000000, 0xa8000000, 0xb8000000, 0xbc000000, 0xc0000000, 0xffffffff].all (fun w => decodeWord w == .error .invalidInstruction) := by
  decide

/-- The bytes of `addiu $t0, $zero, 5`, low byte at the lowest address (R64). -/
theorem test_decodeBytes_little_endian :
    decodeBytes [0x05, 0x00, 0x08, 0x24, 0xff] = .ok (.addiu 8 0 5, [0xff]) ∧ decodeBytes [0x05, 0x00, 0x08] = .error .truncated := by
  decide

/-- The words of program 7's first lines of part 3, encoded. -/
theorem test_encode_program_words :
    encode (.lui 4 0x1001) = 0x3c041001 ∧ encode (.addiu 5 4 16) = 0x24850010 ∧ encode (.beq 6 0 6) = 0x10c00006 ∧
    encode (.lw 8 0 4) = 0x8c880000 ∧ encode (.sw 8 0 5) = 0xaca80000 ∧ encode (.j 0x100003) = 0x08100003 := by decide

/-- The spec's `nop` is 0x00000025, not the zero word (R109, R293); a branch to itself plus 4 and to itself (R108). -/
theorem test_listing :
    (Listing.Pseudo.expand .nop).map encode = [0x00000025] ∧ Listing.branchField 0x00400010 0x00400008 = 0xfffd ∧
    Listing.targetField 0x0040000c = 0x0100003 ∧ Listing.registerName 29 = "$sp" := by decide

/-! ## One step of each instruction (95 2.1 to 2.5) -/

/-- 95 2.1 row 2: the largest target, in the block of `pc + 4`. -/
theorem test_jal :
    after (place 0x00400100 0x0fffffff []) (fun t => (t.reg 31, t.pc)) = some (0x00400104, 0x0ffffffc) := by decide

/-- 95 2.1 row 4: the upper four bits come from `pc + 4`. -/
theorem test_jal_kernel_block :
    after (place 0x80000010 0x0c000040 []) (fun t => (t.reg 31, t.pc)) = some (0x80000014, 0x80000100) := by decide

/-- 95 2.1 row 6: the target is the old value. -/
theorem test_jalr_same_register :
    after (place 0x00400010 0x01004009 [(8, 0x400040)]) (fun t => (t.reg 8, t.pc)) = some (0x00400014, 0x00400040) := by decide

/-- 95 2.1 row 8: the step completes. -/
theorem test_jalr_misaligned :
    after (place 0x00400010 0x0100f809 [(8, 0x400042)]) (fun t => (t.reg 31, t.pc, t.runState)) = some (0x00400014, 0x00400042, .running) := by decide

/-- 95 2.2 row 1. -/
theorem test_beq_taken :
    after (place 0x00400010 0x11090003 [(8, 0x5), (9, 0x5)]) (fun t => t.pc) = some 0x00400020 := by decide

/-- 95 2.2 row 6. -/
theorem test_beq_most_negative :
    after (place 0x00400010 0x10008000 []) (fun t => t.pc) = some 0x003e0014 := by decide

/-- 95 2.2 row 7. -/
theorem test_bne_taken :
    after (place 0x00400010 0x1509fffe [(8, 0x1), (9, 0x2)]) (fun t => t.pc) = some 0x0040000c := by decide

/-- 95 2.2 row 8. -/
theorem test_bne_not_taken :
    after (place 0x00400010 0x1509fffe [(8, 0x2), (9, 0x2)]) (fun t => t.pc) = some 0x00400014 := by decide

/-- 95 2.2 row 10. -/
theorem test_blez_negative :
    after (place 0x00400010 0x19000004 [(8, 0x80000000)]) (fun t => t.pc) = some 0x00400024 := by decide

/-- 95 2.2 row 11. -/
theorem test_blez_positive :
    after (place 0x00400010 0x19000004 [(8, 0x1)]) (fun t => t.pc) = some 0x00400014 := by decide

/-- 95 2.2 row 12. -/
theorem test_bgtz_positive :
    after (place 0x00400010 0x1d00ffff [(8, 0x1)]) (fun t => t.pc) = some 0x00400010 := by decide

/-- 95 2.2 row 13. -/
theorem test_bgtz_negative :
    after (place 0x00400010 0x1d00ffff [(8, 0xffffffff)]) (fun t => t.pc) = some 0x00400014 := by decide

/-- 95 2.2 row 14. -/
theorem test_bltz_negative :
    after (place 0x00400010 0x05000002 [(8, 0xffffffff)]) (fun t => t.pc) = some 0x0040001c := by decide

/-- 95 2.2 row 15. -/
theorem test_bltz_zero :
    after (place 0x00400010 0x05000002 []) (fun t => t.pc) = some 0x00400014 := by decide

/-- 95 2.2 row 16. -/
theorem test_bgez_zero :
    after (place 0x00400010 0x05010002 []) (fun t => t.pc) = some 0x0040001c := by decide

/-- 95 2.2 row 17. -/
theorem test_bgez_negative :
    after (place 0x00400010 0x05010002 [(8, 0x80000000)]) (fun t => t.pc) = some 0x00400014 := by decide

/-- 95 2.2 row 19. -/
theorem test_j :
    after (place 0x00400010 0x0bffffff []) (fun t => t.pc) = some 0x0ffffffc := by decide

/-- 95 2.2 row 20. -/
theorem test_j_kernel_block :
    after (place 0x80000010 0x08000060 []) (fun t => t.pc) = some 0x80000180 := by decide

/-- 95 2.2 row 21. -/
theorem test_jr :
    after (place 0x00400010 0x03e00008 [(31, 0x400008)]) (fun t => t.pc) = some 0x00400008 := by decide

/-- 95 2.2 row 22: the jump itself does not fault. -/
theorem test_jr_misaligned :
    after (place 0x00400010 0x01000008 [(8, 0x400102)]) (fun t => t.pc) = some 0x00400102 := by decide

/-- 95 2.3 row 1. -/
theorem test_add :
    after (place 0x00400000 0x012a4020 [(9, 0x7), (10, 0xfffffffb)]) (fun t => (t.reg 8, t.pc)) = some (0x2, 0x00400004) := by decide

/-- 95 2.3 row 3. -/
theorem test_add_overflow :
    after (place 0x00400000 0x012a4020 [(8, 0x55), (9, 0x80000000), (10, 0xffffffff)]) (fun t => (recorded t, t.reg 8, t.pc)) = some (some (.arithmeticOverflow, 0x00400000), 0x55, 0x00400000) := by decide

/-- 95 2.3 row 4. -/
theorem test_addu :
    after (place 0x00400000 0x012a4021 [(9, 0x7fffffff), (10, 0x1)]) (fun t => (t.reg 8, t.pc)) = some (0x80000000, 0x00400004) := by decide

/-- 95 2.3 row 5. -/
theorem test_sub :
    after (place 0x00400000 0x012a4022 [(9, 0x5), (10, 0x7)]) (fun t => (t.reg 8, t.pc)) = some (0xfffffffe, 0x00400004) := by decide

/-- 95 2.3 row 7. -/
theorem test_sub_overflow :
    after (place 0x00400000 0x000a4022 [(10, 0x80000000)]) (fun t => (recorded t, t.reg 8, t.pc)) = some (some (.arithmeticOverflow, 0x00400000), 0x0, 0x00400000) := by decide

/-- 95 2.3 row 8. -/
theorem test_subu :
    after (place 0x00400000 0x012a4023 [(10, 0x1)]) (fun t => (t.reg 8, t.pc)) = some (0xffffffff, 0x00400004) := by decide

/-- 95 2.3 row 9. -/
theorem test_and :
    after (place 0x00400000 0x012a4024 [(9, 0xff00ff00), (10, 0xff00ff0)]) (fun t => (t.reg 8, t.pc)) = some (0xf000f00, 0x00400004) := by decide

/-- 95 2.3 row 10. -/
theorem test_or :
    after (place 0x00400000 0x012a4025 [(9, 0xff00ff00), (10, 0xff00ff0)]) (fun t => (t.reg 8, t.pc)) = some (0xfff0fff0, 0x00400004) := by decide

/-- 95 2.3 row 11. -/
theorem test_xor :
    after (place 0x00400000 0x012a4026 [(9, 0xff00ff00), (10, 0xff00ff0)]) (fun t => (t.reg 8, t.pc)) = some (0xf0f0f0f0, 0x00400004) := by decide

/-- 95 2.3 row 12. -/
theorem test_nor :
    after (place 0x00400000 0x012a4027 [(9, 0xff00ff00), (10, 0xff00ff0)]) (fun t => (t.reg 8, t.pc)) = some (0xf000f, 0x00400004) := by decide

/-- 95 2.3 row 14. -/
theorem test_slt :
    after (place 0x00400000 0x012a402a [(9, 0xffffffff), (10, 0x1)]) (fun t => (t.reg 8, t.pc)) = some (0x1, 0x00400004) := by decide

/-- 95 2.3 row 15. -/
theorem test_sltu :
    after (place 0x00400000 0x012a402b [(9, 0xffffffff), (10, 0x1)]) (fun t => (t.reg 8, t.pc)) = some (0x0, 0x00400004) := by decide

/-- 95 2.3 row 16. -/
theorem test_addi :
    after (place 0x00400000 0x2128ffff []) (fun t => (t.reg 8, t.pc)) = some (0xffffffff, 0x00400004) := by decide

/-- 95 2.3 row 17. -/
theorem test_addi_overflow :
    after (place 0x00400000 0x2128ffff [(8, 0x55), (9, 0x80000000)]) (fun t => (recorded t, t.reg 8, t.pc)) = some (some (.arithmeticOverflow, 0x00400000), 0x55, 0x00400000) := by decide

/-- 95 2.3 row 18. -/
theorem test_addiu :
    after (place 0x00400000 0x2528ffff [(9, 0x80000000)]) (fun t => (t.reg 8, t.pc)) = some (0x7fffffff, 0x00400004) := by decide

/-- 95 2.3 row 19. -/
theorem test_slti :
    after (place 0x00400000 0x2928ffff [(9, 0xfffffffe)]) (fun t => (t.reg 8, t.pc)) = some (0x1, 0x00400004) := by decide

/-- 95 2.3 row 20. -/
theorem test_sltiu :
    after (place 0x00400000 0x2d28ffff [(9, 0xfffffffe)]) (fun t => (t.reg 8, t.pc)) = some (0x1, 0x00400004) := by decide

/-- 95 2.3 row 21. -/
theorem test_sltiu_equal :
    after (place 0x00400000 0x2d28ffff [(9, 0xffffffff)]) (fun t => (t.reg 8, t.pc)) = some (0x0, 0x00400004) := by decide

/-- 95 2.3 row 22: the immediate is zero-extended. -/
theorem test_andi :
    after (place 0x00400000 0x3128ff00 [(9, 0x12345678)]) (fun t => (t.reg 8, t.pc)) = some (0x5600, 0x00400004) := by decide

/-- 95 2.3 row 23. -/
theorem test_ori :
    after (place 0x00400000 0x3528ff00 [(9, 0x12345678)]) (fun t => (t.reg 8, t.pc)) = some (0x1234ff78, 0x00400004) := by decide

/-- 95 2.3 row 24. -/
theorem test_xori :
    after (place 0x00400000 0x3928ff00 [(9, 0x12345678)]) (fun t => (t.reg 8, t.pc)) = some (0x1234a978, 0x00400004) := by decide

/-- 95 2.3 row 25. -/
theorem test_lui :
    after (place 0x00400000 0x3c081001 [(8, 0xffffffff)]) (fun t => (t.reg 8, t.pc)) = some (0x10010000, 0x00400004) := by decide

/-- 95 2.3 row 28. -/
theorem test_sll :
    after (place 0x00400000 0x000947c0 [(9, 0x3)]) (fun t => (t.reg 8, t.pc)) = some (0x80000000, 0x00400004) := by decide

/-- 95 2.3 row 30. -/
theorem test_srl :
    after (place 0x00400000 0x00094102 [(9, 0x80000001)]) (fun t => (t.reg 8, t.pc)) = some (0x8000000, 0x00400004) := by decide

/-- 95 2.3 row 31. -/
theorem test_sra :
    after (place 0x00400000 0x00094103 [(9, 0x80000001)]) (fun t => (t.reg 8, t.pc)) = some (0xf8000000, 0x00400004) := by decide

/-- 95 2.3 row 33: the amount is 36 mod 32. -/
theorem test_sllv :
    after (place 0x00400000 0x01494004 [(9, 0x80000001), (10, 0x24)]) (fun t => (t.reg 8, t.pc)) = some (0x10, 0x00400004) := by decide

/-- 95 2.3 row 34: the amount is 32 mod 32. -/
theorem test_srlv :
    after (place 0x00400000 0x01494006 [(9, 0x80000001), (10, 0x20)]) (fun t => (t.reg 8, t.pc)) = some (0x80000001, 0x00400004) := by decide

/-- 95 2.3 row 35. -/
theorem test_srav :
    after (place 0x00400000 0x01494007 [(9, 0x80000001), (10, 0xffffffff)]) (fun t => (t.reg 8, t.pc)) = some (0xffffffff, 0x00400004) := by decide

/-- 95 2.3 row 36. -/
theorem test_mult :
    after (place 0x00400000 0x012a0018 [(9, 0xffffffff), (10, 0xffffffff)]) (fun t => (t.hi, t.lo, t.pc)) = some (0x0, 0x1, 0x00400004) := by decide

/-- 95 2.3 row 38. -/
theorem test_mult_high :
    after (place 0x00400000 0x012a0018 [(9, 0x80000000), (10, 0x80000000)]) (fun t => (t.hi, t.lo, t.pc)) = some (0x40000000, 0x0, 0x00400004) := by decide

/-- 95 2.3 row 37. -/
theorem test_multu :
    after (place 0x00400000 0x012a0019 [(9, 0xffffffff), (10, 0xffffffff)]) (fun t => (t.hi, t.lo, t.pc)) = some (0xfffffffe, 0x1, 0x00400004) := by decide

/-- 95 2.3 row 39: the quotient rounds toward zero. -/
theorem test_div :
    after (place 0x00400000 0x012a001a [(9, 0xfffffff9), (10, 0x2)]) (fun t => (t.hi, t.lo, t.pc)) = some (0xffffffff, 0xfffffffd, 0x00400004) := by decide

/-- 95 2.3 row 42. -/
theorem test_div_most_negative :
    after (place 0x00400000 0x012a001a [(9, 0x80000000), (10, 0xffffffff)]) (fun t => (t.hi, t.lo, t.pc)) = some (0x0, 0x80000000, 0x00400004) := by decide

/-- 95 2.3 row 43. -/
theorem test_divu :
    after (place 0x00400000 0x012a001b [(9, 0xfffffff9), (10, 0x2)]) (fun t => (t.hi, t.lo, t.pc)) = some (0x1, 0x7ffffffc, 0x00400004) := by decide

/-- 95 2.3 row 44. -/
theorem test_divu_by_zero :
    after ((place 0x00400000 0x012a001b [(9, 0x7)]).setHiLo 0x11 0x22) (fun t => (t.hi, t.lo, t.pc)) = some (0x11, 0x22, 0x00400004) := by decide

/-- 95 2.3 row 45. -/
theorem test_mfhi :
    after ((place 0x00400000 0x00004010 []).setHiLo 0xdeadbeef 2) (fun t => (t.reg 8, t.pc)) = some (0xdeadbeef, 0x00400004) := by decide

/-- 95 2.3 row 46. -/
theorem test_mflo :
    after ((place 0x00400000 0x00004012 []).setHiLo 1 0xcafef00d) (fun t => (t.reg 8, t.pc)) = some (0xcafef00d, 0x00400004) := by decide

/-- 95 2.3 row 47. -/
theorem test_mthi :
    after ((place 0x00400000 0x01200011 [(9, 0x1234)]).setHiLo 1 2) (fun t => (t.hi, t.lo, t.pc)) = some (0x1234, 0x2, 0x00400004) := by decide

/-- 95 2.3 row 48. -/
theorem test_mtlo :
    after ((place 0x00400000 0x01200013 [(9, 0x1234)]).setHiLo 1 2) (fun t => (t.hi, t.lo, t.pc)) = some (0x1, 0x1234, 0x00400004) := by decide

/-- 95 2.4 row 2. -/
theorem test_lb :
    after (placeData 0x81280003 []) (fun t => (t.reg 8, t.pc)) = some (0xffffff88, 0x00400004) := by decide

/-- 95 2.4 row 3. -/
theorem test_lb_positive :
    after (placeData 0x81280004 []) (fun t => (t.reg 8, t.pc)) = some (0x44, 0x00400004) := by decide

/-- 95 2.4 row 4. -/
theorem test_lbu :
    after (placeData 0x91280000 []) (fun t => (t.reg 8, t.pc)) = some (0xbb, 0x00400004) := by decide

/-- 95 2.4 row 6. -/
theorem test_lh :
    after (placeData 0x85280002 []) (fun t => (t.reg 8, t.pc)) = some (0xffff8899, 0x00400004) := by decide

/-- 95 2.4 row 9. -/
theorem test_lhu :
    after (placeData 0x95280000 []) (fun t => (t.reg 8, t.pc)) = some (0xaabb, 0x00400004) := by decide

/-- 95 2.4 row 11. -/
theorem test_lw :
    after (placeData 0x8d280000 []) (fun t => (t.reg 8, t.pc)) = some (0x8899aabb, 0x00400004) := by decide

/-- 95 2.4 row 10. -/
theorem test_lhu_misaligned :
    after (placeData 0x95280003 []) (fun t => (recorded t, t.reg 8, t.pc)) = some (some (.addressMisaligned, 0x10010003), 0x0, 0x00400000) := by decide

/-- 95 2.4 row 12: reads as zero and stays absent. -/
theorem test_lw_absent :
    after (placeData 0x8d280008 [(8, 0x5)]) (fun t => (t.reg 8, t.mem.readWordOrAbsent 0x10010008)) = some (0x0, none) := by decide

/-- 95 2.4 row 16. -/
theorem test_sb :
    after (placeData 0xa1280003 [(8, 0x123456ff)]) (fun t => (t.mem.readWordOrAbsent 0x10010000, t.pc)) = some (some 0xff99aabb, 0x00400004) := by decide

/-- 95 2.4 row 17. -/
theorem test_sb_absent :
    after (placeData 0xa1280009 [(8, 0x123456ff)]) (fun t => (t.mem.readWordOrAbsent 0x10010008, t.pc)) = some (some 0xff00, 0x00400004) := by decide

/-- 95 2.4 row 19. -/
theorem test_sh :
    after (placeData 0xa5280002 [(8, 0x1234beef)]) (fun t => (t.mem.readWordOrAbsent 0x10010000, t.pc)) = some (some 0xbeefaabb, 0x00400004) := by decide

/-- 95 2.4 row 22. -/
theorem test_sw :
    after (placeData 0xafa8fff8 [(8, 0xdeadbeef)]) (fun t => (t.mem.readWordOrAbsent 0x7fffeff4, t.pc)) = some (some 0xdeadbeef, 0x00400004) := by decide

/-- 95 2.4 row 20. -/
theorem test_sh_misaligned :
    after (placeData 0xa5280001 [(8, 0x1234beef)]) (fun t => (recorded t, t.mem.readWordOrAbsent 0x10010000)) = some (some (.addressMisaligned, 0x10010001), some 0x8899aabb) := by decide

/-- 95 2.4 row 24: text admits fetch only. -/
theorem test_sw_text :
    after (place 0x00400000 0xad280000 [(9, 0x400100)]) (fun t => (recorded t, t.reg 8, t.pc)) = some (some (.addressOutOfRange, 0x00400100), 0x0, 0x00400000) := by decide

/-- R190, R55, by hand: `lh $t0, -4($zero)`, whose sum wraps modulo 2^32. -/
theorem test_lh_wraps :
    after (place 0x00400000 0x8408fffc []) (fun t => (recorded t, t.reg 8, t.pc)) = some (some (.addressOutOfRange, 0xfffffffc), 0x0, 0x00400000) := by decide

/-- 95 2.5 row 1. -/
theorem test_syscall_exit :
    after (place 0x00400000 0x0000000c [(2, 0xa)]) (fun t => (t.runState, t.lastReason, recorded t, t.pc)) = some (.terminated, some .normalCompletion, none, 0x00400000) := by decide

/-- 95 2.5 row 5: all 32 bits are compared. -/
theorem test_syscall_other :
    after (place 0x00400000 0x0000000c [(2, 0x1000000a)]) (fun t => (recorded t, t.reg 8, t.pc)) = some (some (.other, 0x00400000), 0x0, 0x00400000) := by decide

/-- 95 2.5 row 9. -/
theorem test_break :
    after (place 0x00400000 0x03ffffcd []) (fun t => (recorded t, t.reg 8, t.pc)) = some (some (.other, 0x00400000), 0x0, 0x00400000) := by decide

/-- 95 2.5 row 10, P6. -/
theorem test_halt :
    after (place 0x00400000 0x00000000 [(8, 0x5)]) (fun t => (t.lastReason, recorded t, t.reg 8, t.pc)) = some (some .cliffTermination, none, 0x5, 0x00400000) := by decide

/-- 95 2.3 row 50. -/
theorem test_invalid_instruction :
    after (place 0x00400000 0x012a4060 [(8, 0x55)]) (fun t => (recorded t, t.reg 8, t.pc)) = some (some (.invalidInstruction, 0x00400000), 0x55, 0x00400000) := by decide

/-! ## Fetch (95 2.7) -/

/-- Fetch faults at a misaligned and at two unfetchable addresses. -/
theorem test_fetch_faults :
    after (place 0x00400002 0 []) (fun t => (recorded t, t.pc)) = some (some (.addressMisaligned, 0x00400002), 0x00400002) ∧
    after (place 0x10000000 0 []) recorded = some (some (.addressOutOfRange, 0x10000000)) ∧
    after (place 0xfffffffc 0 []) recorded = some (some (.addressOutOfRange, 0xfffffffc)) := by decide

/-- The last text word and the first kernel text word can be fetched: absent there, they end the run. -/
theorem test_fetch_region_edges :
    after { place 0x0ffffffc 0 [] with mem := Memory.empty } (fun t => t.lastReason) = some (some .cliffTermination) ∧
    after { place 0x80000000 0 [] with mem := Memory.empty } (fun t => t.lastReason) = some (some .cliffTermination) := by decide

/-! ## The run controller (95 2.9, program S) -/

/-- Program S: five words `addiu $t0, $t0, 1`. -/
def programS : ProgramImage :=
  { entry := 0x00400000,
    words := [(0x00400000, 0x25080001), (0x00400004, 0x25080001), (0x00400008, 0x25080001), (0x0040000c, 0x25080001),
      (0x00400010, 0x25080001)] }

/-- What a host call answers: its reply and the state after it. -/
def answer (c : HostCall) (s : State) : Option (HostReply × State) :=
  match hostCall c s with
  | .next p => some p
  | .fault _ => none
  | .refused _ => none

/-- The machine after `load` of program S. -/
def loadedS : State := loadImage programS State.reset

/-- What a run invocation reports, with `pc`, `$t0` and the run state after it. -/
def outcome (r : Option (Report × State)) : Option (Bool × Reason × Word × Word × RunState) :=
  r.map fun p => (p.1.terminated, p.1.reason, p.2.pc, p.2.reg 8, p.2.runState)

/-- Row 1: a single step. -/
theorem test_single_step :
    outcome (invoke 2 .runSingleStep loadedS) = some (false, .stepLimit, 0x00400004, 1, .paused) := by decide

/-- Row 13: both flags set during step 1; stop wins over pause. -/
theorem test_stop_before_pause :
    outcome (invoke 2 (.runContinuous [] 0) { loadedS with signals := [⟨true, true⟩] })
      = some (true, .stop, 0x00400004, 1, .terminated) := by decide

/-- Row 14: the breakpoint wins over both flags, which are then cleared. -/
theorem test_breakpoint_before_stop :
    outcome (invoke 2 (.runContinuous [0x00400004] 0) { loadedS with signals := [⟨true, true⟩] })
      = some (false, .breakpoint, 0x00400004, 1, .paused) := by decide

/-- Row 19: step-over at an instruction that is no call is a single step. -/
theorem test_step_over_no_call :
    outcome (invoke 2 (.runStepOver [0x00400004] 7) loadedS) = some (false, .stepLimit, 0x00400004, 1, .paused) := by decide

/-- Row 21: step-over on the empty image. -/
theorem test_step_over_empty :
    outcome (invoke 2 (.runStepOver [] 0) State.reset) = some (true, .cliffTermination, 0x00400000, 0, .terminated) := by decide

/-- Rows 10 and 20, P8: usage errors, and requests made while nothing runs. -/
theorem test_usage_errors :
    answer .runSingleStep { loadedS with runState := .terminated } = some (.usageError, { loadedS with runState := .terminated }) ∧
    answer (.runContinuous [] 0) { loadedS with runState := .running } = some (.usageError, { loadedS with runState := .running }) ∧
    answer .requestPause loadedS = some (.accepted, loadedS) := by decide

/-- P5: at a call, step-over runs with the return address as its transient breakpoint (program 3: `jal` at 0x00400004). -/
theorem test_step_over_call :
    (startStepOver [] 0 (place 0x00400004 0x0c100005 [])).transient = some 0x00400008 ∧
    (startStepOver [] 0 (place 0x00400004 0x0c100005 [])).bpSnapshot = [0x00400008] := by decide

/-- readMemoryWord tells a stored zero from an absent word (program 7), and readRegister reads `$sp` (R37, R38). -/
theorem test_inspection :
    (answer (.readMemoryWord 0x10010018) (State.reset.setMem (Memory.empty.write .word 0x10010018 0))).map Prod.fst
      = some (.value 0) ∧
    answer (.readMemoryWord 0x1001001c) State.reset = some (.absent, State.reset) ∧
    answer (.readRegister (.gpr 29)) State.reset = some (.value 0x7fffeffc, State.reset) ∧
    answer (.readRegister .pc) State.reset = some (.value 0x00400000, State.reset) := by decide

/-- An image with a misaligned or an unmapped address is rejected (R280). -/
theorem test_image_rejected :
    answer (.load { entry := 0, words := [(0x00400002, 1)] }) State.reset = none ∧
    answer (.load { entry := 0, words := [(0xffff0000, 1)] }) State.reset = none := by decide

/-- A breakpoint set is ascending and without repeats (R244). -/
theorem test_breakpoint_set : breakpointSet [0x8, 0x4, 0x8] = [0x4, 0x8] := by decide

/-- The host's two probes: a table word decodes and runs as the first instruction after reset. -/
theorem test_table_word :
    decodeTableWord 32 0x24080005 = some (.addiu 8 0 5) ∧
    after (State.reset.withFetchWord 32 0x24080005) (fun t => (t.reg 8, t.pc)) = some (5, 0x00400004) := by decide

/-! ## Witnesses: for each obligation with hypotheses, concrete values that meet all of them -/

/-- A running machine about to execute `addiu $t0, $t0, 1`. -/
def running : State := place 0x00400000 0x25080001 []

/-- The machine after that step. -/
def stepped : State := stepBoundary ((running.setReg 8 1).advance)

theorem running_inv : running.Inv where
  memoryForm := by decide
  memoryMapped := by
    intro a ha
    have h : a = 0x00400000 := by simpa [running, place, withRegs, Memory.write, Memory.storeBytes, insertAddress, Memory.empty] using ha
    subst h
    exact .inl (.inl ⟨by decide, by decide⟩)
  zeroRegister := by decide
  snapshotAscending := List.Pairwise.nil
  transientListed := by intro a h; simp [running, place, withRegs, State.reset] at h
  clearWhenStopped := fun h => absurd rfl h
  idleFresh := fun _ => rfl
  endedByReason := by simp [running, place, withRegs, State.reset]
  recordAfterFault := by simp [running, place, withRegs, State.reset]
  withinLimit := by simp [running, place, withRegs, State.reset]
  singleMode := by simp [running, place, withRegs, State.reset]

theorem witness_DecodeOfEncodeIsTheInstruction :
    (Instr.jalr 31 31).wellFormed = true ∧ (Instr.break_ 0xfffff).wellFormed = true ∧ (Instr.sll 0 0 31).wellFormed = true := by
  decide

theorem witness_EncodeOfDecodeIsTheWord :
    decodeWord 0x03ffffcd = .ok (.break_ 0xfffff) ∧ decodeWord 0xafffffff = .ok (.sw 31 0xffff 31) := by decide

theorem witness_DecoderFollowsMatchAndMask_row : (0x03e00008 : Word) ≠ 0 ∧
    ∃ r ∈ opcodeRows, (0x03e00008 : Word) &&& r.mask = r.mtch := by decide

theorem witness_DecoderFollowsMatchAndMask_no_row : (0x03e00408 : Word) ≠ 0 ∧
    ∀ r ∈ opcodeRows, (0x03e00408 : Word) &&& r.mask ≠ r.mtch := by decide

theorem witness_NoTwoRowsMatchOneWord : (0x00000040 : Word) ≠ 0 ∧
    ∃ r ∈ haltRow :: opcodeRows, ∃ q ∈ haltRow :: opcodeRows,
      (0x00000040 : Word) &&& r.mask = r.mtch ∧ (0x00000040 : Word) &&& q.mask = q.mtch := by decide

/-- At the last word of the text region. -/
theorem witness_UnmatchedWordRaisesInvalidInstruction :
    (place 0x0ffffffc 0x03e00408 []).runState = .running ∧ Fetchable (place 0x0ffffffc 0x03e00408 []) ∧
    (place 0x0ffffffc 0x03e00408 []).mem.word 0x0ffffffc ≠ 0 ∧
    ∀ r ∈ opcodeRows, (place 0x0ffffffc 0x03e00408 []).mem.word 0x0ffffffc &&& r.mask ≠ r.mtch :=
  ⟨rfl, ⟨by decide, .inl ⟨by decide, by decide⟩⟩, by decide, by decide⟩

theorem witness_UnmatchedWordRaisesInvalidInstruction_listed :
    (fieldOp 0xc0000000).toNat = 0x30 ∧ (fieldOp 0x00000036).toNat = 0 ∧ (fieldFunct 0x00000036).toNat = 0x36 ∧
    (fieldOp 0x04110000).toNat = 1 ∧ (bitsRt 0x04110000).toNat = 0x11 := by decide

/-- The first and the last word of a region, in an image loaded over a paused machine; and the empty image. -/
theorem witness_LoadResetsTheMachine :
    ({ stepped with runState := .paused }).runState ≠ .running ∧
    ({ entry := 0x00400000, words := [(0x0ffffffc, 1), (0x10000000, 0)] } : ProgramImage).wellFormed = true ∧
    ProgramImage.empty.wellFormed = true := by decide

theorem witness_StepKeepsTheInvariant : running.Inv ∧ step running = .next stepped := ⟨running_inv, by rfl⟩

theorem witness_HostCallKeepsTheInvariant :
    running.Inv ∧ hostCall .requestStop running = .next (.accepted, { running with stopReq := true }) := ⟨running_inv, by rfl⟩

theorem witness_EqualMemoriesAreEqualData :
    running.mem.wf ∧ (running.mem.write .byte 0x10000000 5).wf ∧
    (∀ a, running.mem.byte a = running.mem.byte a) ∧ (∀ a, running.mem.isPresent a = running.mem.isPresent a) :=
  ⟨by decide, by decide, fun _ => rfl, fun _ => rfl⟩

/-- The first and the last word of each data region (P1). -/
theorem witness_WordRoundTrip : running.mem.wf ∧
    [0x10000000, 0x7ffffffc, 0x90000000, 0xfffefffc].all (fun a =>
      checkAccess a .word .store == none && checkAccess a .word .load == none) = true := by decide

theorem witness_NarrowWriteReplacesItsBits : Memory.empty.wf ∧
    0x10000003 % Width.byte.bytes = 0 ∧ 0x7ffffffe % Width.half.bytes = 0 ∧ Width.byte ≠ .word ∧ Width.half ≠ .word ∧
    Memory.empty.isPresent (0x10000003 - 0x10000003 % 4) = false := by decide

/-- `lb` at the last byte of the data region, where the word is absent. -/
theorem witness_AbsentWordReadsAsZero :
    (place 0x00400000 0 [(9, 0x7fffffff)]).mem.wf ∧ loadAccess (.lb 8 0 9) 9 0 1 ∧ destination (.lb 8 0 9) = some 8 ∧
    DataAccessible (effectiveAddress (place 0x00400000 0 [(9, 0x7fffffff)]) 9 0) 1 ∧
    (place 0x00400000 0 [(9, 0x7fffffff)]).mem.isPresent 0x7ffffffc = false :=
  ⟨by decide, .inl ⟨8, rfl, rfl⟩, rfl, ⟨by decide, .inl ⟨by decide, by decide⟩⟩, by decide⟩

theorem witness_AbsentWordReadsAsZero_fetch :
    Fetchable { running with pc := 0x00400004 } ∧ running.mem.isPresent 0x00400004 = false :=
  ⟨⟨by decide, .inl ⟨by decide, by decide⟩⟩, by decide⟩

/-- A present word, an absent one, a misaligned address and an unmapped one. -/
theorem witness_ReadMemoryWordTellsAbsentFromZero :
    State.reset.runState ≠ .running ∧ State.reset.mem.isPresent 0x10010000 = false ∧
    (0x10010001 : Word).toNat % 4 ≠ 0 ∧ ¬ InFetchRange 0xffff0000 4 ∧ ¬ InDataRange 0xffff0000 4 := by
  refine ⟨by decide, by decide, by decide, ?_, ?_⟩ <;> simp [InFetchRange, InDataRange]

theorem witness_ReadMemoryWordTellsAbsentFromZero_present :
    ({ running with runState := .paused }).runState ≠ .running ∧ running.mem.isPresent 0x00400000 = true := by decide

/-- A load and a store with an odd wrapped sum. -/
theorem witness_MisalignedAccessNeverRepaired :
    loadAccess (.lh 8 0xffff 0) 0 0xffff 2 ∧ storeAccess (.sw 8 0xffff 0) 8 0 0xffff 4 ∧
    (((running.reg 0).toNat : Int) + signed16 0xffff) % 2 ^ 32 % (2 : Nat) ≠ 0 ∧
    (((running.reg 0).toNat : Int) + signed16 0xffff) % 2 ^ 32 % (4 : Nat) ≠ 0 :=
  ⟨.inr (.inr (.inl ⟨8, rfl, rfl⟩)), .inr (.inr ⟨rfl, rfl⟩), by decide, by decide⟩

theorem witness_MisalignedAccessNeverRepaired_fetch :
    ({ running with pc := 0x00400001 }).runState = .running ∧ (0x00400001 : Word).toNat % 4 ≠ 0 := by decide

theorem witness_StepNeverChangesText : running.mem.wf ∧ step running = .next stepped := ⟨by decide, by rfl⟩

/-- The largest sum that fits, and the smallest difference that does not. -/
theorem witness_TrappingArithmeticResults :
    signed32 0x7ffffffe + signed32 1 = 2 ^ 31 - 1 ∧ signed32 0x80000000 - signed32 1 < -2 ^ 31 ∧
    signed32 0x80000000 + signed16 0x7fff ≥ -2 ^ 31 := by decide

theorem witness_OverflowIsReadOffTheSignBits :
    running.runState = .running ∧ (0x7fffffff : Word).msb = (1 : Word).msb ∧
    ((0x7fffffff : Word) + 1).msb ≠ (0x7fffffff : Word).msb := by decide

/-- `lui`, with the vector of 95 2.3 row 25. -/
theorem witness_BitwiseResults :
    ∃ f : Nat → Bool, (Instr.lui 8 0x1001 = .lui 8 0x1001 ∧ (8 : RegIdx) = 8 ∧
      f = fun k => decide (16 ≤ k) && (0x1001 : BitVec 16).getLsbD (k - 16)) ∧
      ∀ k, k < 32 → (0x10010000 : Word).getLsbD k = f k :=
  ⟨_, ⟨rfl, rfl, rfl⟩, by decide⟩

/-- The six formulas on the vectors of 95 2.3 rows 28, 30, 31, 33, 34 and 35. -/
theorem witness_ShiftResults :
    (0x80000000 : Word) = BitVec.ofNat 32 ((3 : Word).toNat * 2 ^ (31 : BitVec 5).toNat) ∧
    (0x08000000 : Word) = BitVec.ofNat 32 ((0x80000001 : Word).toNat / 2 ^ (4 : BitVec 5).toNat) ∧
    (0xf8000000 : Word) = BitVec.ofInt 32 (signed32 0x80000001 / 2 ^ (4 : BitVec 5).toNat) ∧
    (0x00000010 : Word) = BitVec.ofNat 32 ((0x80000001 : Word).toNat * 2 ^ ((0x24 : Word).toNat % 32)) ∧
    (0x80000001 : Word) = BitVec.ofNat 32 ((0x80000001 : Word).toNat / 2 ^ ((0x20 : Word).toNat % 32)) ∧
    (0xffffffff : Word) = BitVec.ofInt 32 (signed32 0x80000001 / 2 ^ ((0xffffffff : Word).toNat % 32)) := by decide

/-- A zero divisor; and quotient and remainder of -7 by 2 and of the most negative number by -1 (95 2.3 rows 39, 42). -/
theorem witness_DivideResults :
    running.reg 0 = 0 ∧ (withRegs running [(10, 2)]).reg 10 ≠ 0 ∧
    signed32 0xfffffff9 = -3 * signed32 2 + -1 ∧ signed32 0x80000000 = 2 ^ 31 * signed32 0xffffffff + 0 := by decide

/-- Each of the three trapping forms just outside the range, in both directions. -/
theorem witness_ZeroDestinationKeepsOtherEffects_overflow :
    (destination (.add 0 9 10) = some 0 ∧ exactResult (.add 0 9 10) (withRegs running [(9, 0x7fffffff), (10, 1)]) 0 (2 ^ 31) ∧
      OutsideSigned (2 ^ 31)) ∧
    (destination (.sub 0 9 10) = some 0 ∧
      exactResult (.sub 0 9 10) (withRegs running [(9, 0x80000000), (10, 1)]) 0 (-2 ^ 31 - 1) ∧ OutsideSigned (-2 ^ 31 - 1)) ∧
    destination (.addi 0 9 0xffff) = some 0 ∧
    exactResult (.addi 0 9 0xffff) (withRegs running [(9, 0x80000000)]) 0 (-2 ^ 31 - 1) :=
  ⟨⟨rfl, .inl ⟨9, 10, rfl, by decide⟩, .inr (by decide)⟩, ⟨rfl, .inr (.inl ⟨9, 10, rfl, by decide⟩), .inl (by decide)⟩, rfl,
    .inr (.inr ⟨9, 0xffff, rfl, by decide⟩)⟩

/-- A misaligned `lh`, and an `lw` at the first address past the data region. -/
theorem witness_ZeroDestinationKeepsOtherEffects_load :
    loadAccess (.lh 0 1 0) 0 1 2 ∧ (effectiveAddress running 0 1).toNat % 2 ≠ 0 ∧
    loadAccess (.lw 0 0 9) 9 0 4 ∧ (effectiveAddress (withRegs running [(9, 0x80000000)]) 9 0).toNat % 4 = 0 ∧
    ¬ InDataRange (effectiveAddress (withRegs running [(9, 0x80000000)]) 9 0).toNat 4 := by
  refine ⟨.inr (.inr (.inl ⟨0, rfl, rfl⟩)), by decide, .inr (.inr (.inr (.inr ⟨0, rfl, rfl⟩))), by decide, ?_⟩
  have h : (effectiveAddress (withRegs running [(9, 0x80000000)]) 9 0).toNat = 0x80000000 := by decide
  rw [h]
  simp [InDataRange]

/-- `addi` at the largest result that fits, `lw` at the last data word, and `jalr`. -/
theorem witness_ZeroDestinationKeepsOtherEffects_completes :
    (Instr.addi 0 9 1).category ≠ .call ∧
    (∀ e, exactResult (.addi 0 9 1) (withRegs running [(9, 0x7ffffffe)]) 0 e → ¬ OutsideSigned e) ∧
    (∀ rs imm n, ¬ loadAccess (.addi 0 9 1) rs imm n) ∧
    (destination (.lw 0 0 9) = some 0 ∧ loadAccess (.lw 0 0 9) 9 0 4 ∧
      DataAccessible (effectiveAddress (withRegs running [(9, 0x7ffffffc)]) 9 0) 4) ∧
    destination (.jalr 0 9) = some 0 := by
  refine ⟨by decide, ?_, by simp [loadAccess],
    ⟨rfl, .inr (.inr (.inr (.inr ⟨0, rfl, rfl⟩))), by decide, .inl ⟨by decide, by decide⟩⟩, rfl⟩
  rintro e (⟨_, _, h, _⟩ | ⟨_, _, h, _⟩ | ⟨_, _, h, he⟩)
  · cases h
  · cases h
  · cases h
    have hv : signed32 ((withRegs running [(9, 0x7ffffffe)]).reg 9) + signed16 1 = 2 ^ 31 - 1 := by decide
    rw [he, hv]
    simp [OutsideSigned]

/-- Both outcomes of each condition at its edge: zero and the numbers beside it. -/
theorem witness_ConditionalBranchResults :
    (running.reg 8 = running.reg 0) ∧ ¬ (running.reg 8 ≠ running.reg 0) ∧ signed32 0 ≤ 0 ∧ ¬ (signed32 1 ≤ 0) ∧ signed32 1 > 0 ∧
    ¬ (signed32 0 > 0) ∧ signed32 0xffffffff < 0 ∧ ¬ (signed32 0 < 0) ∧ signed32 0 ≥ 0 ∧ ¬ (signed32 0xffffffff ≥ 0) := by decide

/-- The four values of 95 2.4 rows 2, 4, 6, 9 and 11, from the formulas. -/
theorem witness_LoadResults :
    DataAccessible (effectiveAddress (placeData 0 []) 9 3) 1 ∧ DataAccessible (effectiveAddress (placeData 0 []) 9 2) 2 ∧
    DataAccessible (effectiveAddress (placeData 0 []) 9 0) 4 ∧
    (0xffffff88 : Word) = BitVec.ofInt 32 (signed8 (BitVec.ofNat 8 (bytesValue (placeData 0 []).mem 0x10010003 1))) ∧
    (0xbb : Word) = BitVec.ofNat 32 (bytesValue (placeData 0 []).mem 0x10010000 1) ∧
    (0xffff8899 : Word) = BitVec.ofInt 32 (signed16 (BitVec.ofNat 16 (bytesValue (placeData 0 []).mem 0x10010002 2))) ∧
    (0xaabb : Word) = BitVec.ofNat 32 (bytesValue (placeData 0 []).mem 0x10010000 2) ∧
    (0x8899aabb : Word) = BitVec.ofNat 32 (bytesValue (placeData 0 []).mem 0x10010000 4) :=
  ⟨⟨by decide, .inl ⟨by decide, by decide⟩⟩, ⟨by decide, .inl ⟨by decide, by decide⟩⟩, ⟨by decide, .inl ⟨by decide, by decide⟩⟩,
    by decide, by decide, by decide, by decide, by decide⟩

/-- The three stores, at the last place of the data region that admits each. -/
theorem witness_StoreResults :
    running.mem.wf ∧ storeAccess (.sb 8 0 9) 8 9 0 1 ∧ storeAccess (.sh 8 0 9) 8 9 0 2 ∧ storeAccess (.sw 8 0 9) 8 9 0 4 ∧
    DataAccessible 0x7fffffff 1 ∧ DataAccessible 0x7ffffffe 2 ∧ DataAccessible 0xfffefffc 4 ∧
    effectiveAddress (withRegs running [(9, 0xfffefffc)]) 9 0 = 0xfffefffc :=
  ⟨by decide, .inl ⟨rfl, rfl⟩, .inr (.inl ⟨rfl, rfl⟩), .inr (.inr ⟨rfl, rfl⟩), ⟨by decide, .inl ⟨by decide, by decide⟩⟩,
    ⟨by decide, .inl ⟨by decide, by decide⟩⟩, ⟨by decide, .inr ⟨by decide, by decide⟩⟩, by decide⟩

/-- A misaligned address, and an aligned one just past the data region. -/
theorem witness_DataAccessFaults :
    storeAccess (.sw 8 1 0) 8 0 1 4 ∧ (effectiveAddress running 0 1).toNat % 4 ≠ 0 ∧
    loadAccess (.lw 8 0 9) 9 0 4 ∧ (effectiveAddress (withRegs running [(9, 0x80000000)]) 9 0).toNat % 4 = 0 ∧
    ¬ InDataRange (effectiveAddress (withRegs running [(9, 0x80000000)]) 9 0).toNat 4 := by
  refine ⟨.inr (.inr ⟨rfl, rfl⟩), by decide, .inr (.inr (.inr (.inr ⟨8, rfl, rfl⟩))), by decide, ?_⟩
  have h : (effectiveAddress (withRegs running [(9, 0x80000000)]) 9 0).toNat = 0x80000000 := by decide
  rw [h]
  simp [InDataRange]

theorem witness_StoreWordThenLoadWord :
    (withRegs running [(9, 0x10000000)]).mem.wf ∧
    DataAccessible (effectiveAddress (withRegs running [(9, 0x10000000)]) 9 0) 4 ∧
    ∃ t, exec (.sw 8 0 9) (withRegs running [(9, 0x10000000)]) = .next t :=
  ⟨by decide, ⟨by decide, .inl ⟨by decide, by decide⟩⟩, _, rfl⟩

theorem witness_SyscallExitsOrRaisesOther :
    (withRegs running [(2, 10)]).reg 2 = 10 ∧ (withRegs running [(2, 0x1000000a)]).reg 2 ≠ 10 := by decide

/-- The last text word, absent. -/
theorem witness_SentinelEndsTheRun :
    ({ running with pc := 0x0ffffffc }).mem.wf ∧ ({ running with pc := 0x0ffffffc }).runState = .running ∧
    Fetchable { running with pc := 0x0ffffffc } ∧ running.mem.isPresent 0x0ffffffc = false :=
  ⟨by decide, rfl, ⟨by decide, .inl ⟨by decide, by decide⟩⟩, by decide⟩

theorem witness_FetchChecksTheProgramCounter :
    running.runState = .running ∧ (0x00400002 : Word).toNat % 4 ≠ 0 ∧
    (0x10000000 : Word).toNat % 4 = 0 ∧ ¬ InFetchRange (0x10000000 : Word).toNat 4 ∧ Fetchable { running with pc := 0x8ffffffc } :=
  ⟨rfl, by decide, by decide, by simp [InFetchRange], ⟨by decide, .inr ⟨by decide, by decide⟩⟩⟩

theorem witness_FaultsArePrecise :
    (place 0x00400010 0x0000000d []).runState = .running ∧ (place 0x00400010 0x0000000d []).faultRecord = none ∧
    step (place 0x00400010 0x0000000d []) = .next (raiseFault .other 0x00400010 (place 0x00400010 0x0000000d [])) ∧
    (raiseFault .other 0x00400010 (place 0x00400010 0x0000000d [])).faultRecord
      = some ⟨.other, 0x00400010, Config.faultMessage 4 0x00400010⟩ := ⟨rfl, rfl, by rfl, rfl⟩

/-- One fault of each of the four kinds an execution can raise. -/
theorem witness_ExecuteFaultsHaveTheListedCauses :
    running.faultRecord = none ∧
    exec (.lw 8 1 0) running = .next (raiseFault .addressMisaligned 1 running) ∧
    exec (.lw 8 0 0) running = .next (raiseFault .addressOutOfRange 0 running) ∧
    exec (.add 8 9 9) (withRegs running [(9, 0x40000000)])
      = .next (raiseFault .arithmeticOverflow 0x00400000 (withRegs running [(9, 0x40000000)])) ∧
    exactResult (.add 8 9 9) (withRegs running [(9, 0x40000000)]) 8 (2 ^ 31) ∧
    exec .syscall running = .next (raiseFault .other 0x00400000 running) :=
  ⟨rfl, by rfl, by rfl, by rfl, .inl ⟨9, 9, rfl, by decide⟩, by rfl⟩

theorem witness_StepRunsTheDecodedInstruction :
    running.runState = .running ∧ Fetchable running ∧
    decodeBytes [running.mem.byte 0x00400000, running.mem.byte 0x00400001, running.mem.byte 0x00400002,
      running.mem.byte 0x00400003] = .ok (.addiu 8 8 1, []) ∧
    exec (.addiu 8 8 1) running = .next (running.setReg 8 1).advance :=
  ⟨rfl, ⟨by decide, .inl ⟨by decide, by decide⟩⟩, by decide, by rfl⟩

/-- The same, with an instruction that ends the run. -/
theorem witness_StepRunsTheDecodedInstruction_ending :
    exec .halt running = .next (terminate .cliffTermination running) ∧ (terminate .cliffTermination running).runState ≠ .running :=
  ⟨rfl, by decide⟩

theorem witness_StepAlwaysAnswersNext : State.reset.runState ≠ .running := by decide

theorem witness_StraightLineAdvancesByFour :
    (Instr.addiu 8 8 1).category = .arithmetic ∧ running.runState = .running ∧
    exec (.addiu 8 8 1) running = .next (running.setReg 8 1).advance ∧ ((running.setReg 8 1).advance).runState = .running :=
  ⟨rfl, rfl, by rfl, rfl⟩

theorem witness_EveryInstructionKeepsItsFrame :
    running.mem.wf ∧ storeAccess (.sw 8 0 29) 8 29 0 4 ∧ ∃ t, exec (.sw 8 0 29) running = .next t ∧ t.runState = .running :=
  ⟨by decide, .inr (.inr ⟨rfl, rfl⟩), _, rfl, rfl⟩

/-- Two machines that differ only in their run controllers. -/
theorem witness_CoreStepDependsOnTheBlockAlone :
    running.runState = .running ∧ SameBlock running { running with bpSnapshot := [4], stepLimit := 7 } ∧
    running.faultRecord = none ∧ running.lastReason = none ∧ (∃ t, coreStep running = .next t) ∧ ∃ t, coreStep { running with bpSnapshot := [4], stepLimit := 7 } = .next t :=
  ⟨rfl, ⟨fun _ => rfl, rfl, rfl, rfl, rfl⟩, rfl, rfl, ⟨_, rfl⟩, ⟨_, rfl⟩⟩

theorem witness_RunStateFollowsTheReason : running.runState = .running ∧ step running = .next stepped := ⟨rfl, by rfl⟩

/-- A step after which the run goes on, and one with which it ends. -/
theorem witness_EndOfInvocationClearsAndReportsOnce :
    step running = .next stepped ∧ stepped.runState = .running ∧
    ∃ t, step { running with stopReq := true } = .next t ∧ t.runState ≠ .running ∧ step t = .next t :=
  ⟨by rfl, rfl, _, rfl, by decide, by rfl⟩

/-- Each condition on its own after the core step of a running machine, and none of them. -/
theorem witness_BoundaryTestsInOrder :
    (∃ u, coreStep { running with stepLimit := 1 } = .next u ∧ u.runState = .running ∧ 0 < u.stepLimit ∧
      ((u.stepCount + 1 : Nat) : Int) = u.stepLimit) ∧
    (∃ u, coreStep { running with bpSnapshot := [0x00400004] } = .next u ∧ u.mode = .continuous ∧ u.pc ∈ u.bpSnapshot) ∧
    (∃ u, coreStep { running with signals := [⟨false, true⟩] } = .next u ∧ ∃ g rest, u.signals = g :: rest ∧ g.stop = true) ∧
    (∃ u, coreStep { running with pauseReq := true } = .next u ∧ u.pauseReq = true) ∧
    ∃ u, coreStep running = .next u ∧ u.stepLimit = 0 ∧ u.bpSnapshot = [] ∧ u.signals = [] ∧ u.stopReq = false ∧
      u.pauseReq = false :=
  ⟨⟨_, rfl, rfl, by decide, by decide⟩, ⟨_, rfl, rfl, by decide⟩, ⟨_, rfl, _, _, rfl, rfl⟩, ⟨_, rfl, rfl⟩,
    ⟨_, rfl, rfl, rfl, rfl, rfl, rfl⟩⟩

theorem witness_BoundaryTestsInOrder_ended :
    coreStep (place 0x00400000 0 []) = .next (terminate .cliffTermination (place 0x00400000 0 [])) ∧
    (terminate .cliffTermination (place 0x00400000 0 [])).runState ≠ .running := ⟨by rfl, by decide⟩

/-- One state in each of the four run states. -/
theorem witness_RunRequestAdmission :
    State.reset.runState = .idle ∧ ({ running with runState := .paused }).runState = .paused ∧ running.runState = .running ∧
    (terminate .cliffTermination running).runState = .terminated := by decide

/-- A call at `pc`, an unfetchable `pc`, and an instruction that is no call. -/
theorem witness_RunRequestArguments :
    State.reset.runState = .idle ∧
    (Fetchable (place 0x00400004 0x0c100005 []) ∧
      decodeWord ((place 0x00400004 0x0c100005 []).mem.word 0x00400004) = .ok (.jal 0x0100005) ∧
      (Instr.jal 0x0100005).category = .call) ∧
    ¬ Fetchable { State.reset with pc := 0x00400002 } ∧
    decodeWord (running.mem.word 0x00400000) = .ok (.addiu 8 8 1) ∧ (Instr.addiu 8 8 1).category ≠ .call :=
  ⟨rfl, ⟨⟨by decide, .inl ⟨by decide, by decide⟩⟩, by decide, rfl⟩, fun h => absurd h.1 (by decide), by decide, by decide⟩

/-- A single step that completes, and one that ends the run. -/
theorem witness_SingleStepRunsOneCoreStep :
    (∃ u v, hostCall .runSingleStep { running with runState := .idle } = .next (.accepted, u) ∧ coreStep u = .next v ∧
      v.runState = .running) ∧
    ∃ u v, hostCall .runSingleStep State.reset = .next (.accepted, u) ∧ coreStep u = .next v ∧ v.runState ≠ .running :=
  ⟨⟨_, _, rfl, rfl, rfl⟩, ⟨_, _, rfl, rfl, by decide⟩⟩

theorem witness_RequestsOutsideARunAreIgnored : State.reset.runState ≠ .running ∧ running.runState = .running := by decide

end Sys2Proof.Tests
end

section
/-! PROOF. The effect of an instruction as data: what `exec` may do to a state, said once for all 53 instructions. It depends on
the hardware block alone, and every claim about all instructions is a claim about the seven effects. -/

namespace Sys2Proof.Machine

variable {s s' : State} {i : Instr}

/-! ## States with the same hardware block -/

theorem SameBlock.refl (s : State) : SameBlock s s := ⟨fun _ => rfl, rfl, rfl, rfl, rfl⟩

theorem SameBlock.reg (h : SameBlock s s') (r : RegIdx) : s'.reg r = s.reg r := (h.1 r).symm

theorem SameBlock.pc (h : SameBlock s s') : s'.pc = s.pc := h.2.1.symm

theorem SameBlock.hi (h : SameBlock s s') : s'.hi = s.hi := h.2.2.1.symm

theorem SameBlock.lo (h : SameBlock s s') : s'.lo = s.lo := h.2.2.2.1.symm

theorem SameBlock.mem (h : SameBlock s s') : s'.mem = s.mem := h.2.2.2.2.symm

theorem SameBlock.nextPc (h : SameBlock s s') : s'.nextPc = s.nextPc := by simp only [State.nextPc, h.pc]

theorem SameBlock.effectiveAddress (h : SameBlock s s') (rs : RegIdx) (imm : BitVec 16) :
    effectiveAddress s' rs imm = effectiveAddress s rs imm := by simp only [Machine.effectiveAddress, h.reg]

theorem SameBlock.branchTarget (h : SameBlock s s') (imm : BitVec 16) : branchTarget s' imm = branchTarget s imm := by
  simp only [Machine.branchTarget, h.nextPc]

theorem SameBlock.jumpTarget (h : SameBlock s s') (target : BitVec 26) : jumpTarget s' target = jumpTarget s target := by
  simp only [Machine.jumpTarget, h.nextPc]

theorem SameBlock.shiftVar (h : SameBlock s s') (rs : RegIdx) : shiftVar s' rs = shiftVar s rs := by
  simp only [Machine.shiftVar, h.reg]

theorem SameBlock.fetch (h : SameBlock s s') : fetch s' = fetch s := by simp only [Machine.fetch, h.pc, h.mem]

/-! ## The model's readings of a value are the spec's -/

theorem toInt_eq_signed32 (v : Word) : v.toInt = signed32 v := by
  rw [BitVec.toInt_eq_toNat_cond, signed32]
  split <;> split <;> omega

theorem toInt_immSigned (imm : BitVec 16) : (immSigned imm).toInt = signed16 imm := by
  rw [immSigned, sext16, BitVec.toInt_signExtend_of_le (by omega), BitVec.toInt_eq_toNat_cond, signed16]
  split <;> split <;> omega

/-! ## The three trapping instructions -/

theorem destination_of_exactResult {d : RegIdx} {e : Int} (h : exactResult i s d e) : destination i = some d := by
  obtain ⟨_, _, rfl, _⟩ | ⟨_, _, rfl, _⟩ | ⟨_, _, rfl, _⟩ := h <;> rfl

theorem category_of_exactResult {d : RegIdx} {e : Int} (h : exactResult i s d e) : i.category = .arithmetic := by
  obtain ⟨_, _, rfl, _⟩ | ⟨_, _, rfl, _⟩ | ⟨_, _, rfl, _⟩ := h <;> rfl

theorem exec_of_exactResult {d : RegIdx} {e : Int} (h : exactResult i s d e) : exec i s = writeOrOverflow d e s := by
  obtain ⟨rs, rt, rfl, rfl⟩ | ⟨rs, rt, rfl, rfl⟩ | ⟨rs, imm, rfl, rfl⟩ := h
  · simp only [exec, execAdd, toInt_eq_signed32]
  · simp only [exec, execSub, toInt_eq_signed32]
  · simp only [exec, execAddi, toInt_eq_signed32 (s.reg rs), toInt_immSigned]

theorem SameBlock.exactResult (h : SameBlock s s') {d : RegIdx} {e : Int} (hx : exactResult i s d e) :
    exactResult i s' d e := by
  simpa only [Machine.exactResult, h.reg] using hx

theorem writeOrOverflow_of_outside {e : Int} (h : OutsideSigned e) (d : RegIdx) (s : State) :
    writeOrOverflow d e s = .next (raiseFault .arithmeticOverflow s.pc s) := by
  rcases writeOrOverflow_cases d e s with ⟨h₁, h₂, _⟩ | ⟨_, heq⟩
  · rcases h with h | h <;> omega
  · exact heq

theorem writeOrOverflow_of_fits {e : Int} (h : ¬ OutsideSigned e) (d : RegIdx) (s : State) :
    writeOrOverflow d e s = .next (s.setReg d (BitVec.ofInt 32 e)).advance := by
  rcases writeOrOverflow_cases d e s with ⟨_, _, heq⟩ | ⟨hout, _⟩
  · exact heq
  · exact absurd (hout.imp_right fun h => by omega) h

/-! ## Loads and stores -/

/-- The fault kind that the check of a data access raises at `a`, alignment first (R54, R55). -/
def AccessFails (k : FaultKind) (a : Word) (n : Nat) : Prop :=
  (k = .addressMisaligned ∧ a.toNat % n ≠ 0) ∨
  (k = .addressOutOfRange ∧ a.toNat % n = 0 ∧ ¬ InDataRange a.toNat n)

theorem AccessFails.not_accessible {k : FaultKind} {a : Word} {n : Nat} (h : AccessFails k a n) : ¬ DataAccessible a n := by
  rintro ⟨hal, hin⟩
  rcases h with ⟨_, h⟩ | ⟨_, _, h⟩
  · exact h hal
  · exact h hin

theorem checkAccess_eq_some {a : Word} {w : Width} {kind : AccessKind} {k : FaultKind} :
    checkAccess a w kind = some k ↔ (k = .addressMisaligned ∧ a.toNat % w.bytes ≠ 0) ∨
      (k = .addressOutOfRange ∧ a.toNat % w.bytes = 0 ∧ ¬ regionAdmits a.toNat w.bytes kind = true) := by
  rcases checkAccess_cases a w kind with ⟨h, e⟩ | ⟨h, h', e⟩ | ⟨h, h', e⟩
  · simp [h, e, @eq_comm _ k]
  · simp [h, h', e, @eq_comm _ k]
  · simp [h, h', e]

theorem checkAccess_load_fails {a : Word} {w : Width} {k : FaultKind} :
    checkAccess a w .load = some k ↔ AccessFails k a w.bytes := by
  rw [AccessFails, ← regionAdmits_load, checkAccess_eq_some]

theorem checkAccess_store_fails {a : Word} {w : Width} {k : FaultKind} :
    checkAccess a w .store = some k ↔ AccessFails k a w.bytes := by
  rw [AccessFails, ← regionAdmits_store, checkAccess_eq_some]

theorem exec_of_loadAccess {rs : RegIdx} {imm : BitVec 16} {n : Nat} (h : loadAccess i rs imm n) :
    ∃ w ext rt, n = w.bytes ∧ destination i = some rt ∧ i.category = .memory ∧ exec i = loadInto w ext rt imm rs := by
  obtain ⟨rt, rfl, rfl⟩ | ⟨rt, rfl, rfl⟩ | ⟨rt, rfl, rfl⟩ | ⟨rt, rfl, rfl⟩ | ⟨rt, rfl, rfl⟩ := h
  · exact ⟨.byte, sext8OfLow, rt, rfl, rfl, rfl, rfl⟩
  · exact ⟨.byte, id, rt, rfl, rfl, rfl, rfl⟩
  · exact ⟨.half, sext16OfLow, rt, rfl, rfl, rfl, rfl⟩
  · exact ⟨.half, id, rt, rfl, rfl, rfl, rfl⟩
  · exact ⟨.word, id, rt, rfl, rfl, rfl, rfl⟩

theorem exec_of_storeAccess {rt rs : RegIdx} {imm : BitVec 16} {n : Nat} (h : storeAccess i rt rs imm n) :
    ∃ w, n = w.bytes ∧ destination i = none ∧ i.category = .memory ∧ exec i = storeFrom w rt imm rs := by
  obtain ⟨rfl, rfl⟩ | ⟨rfl, rfl⟩ | ⟨rfl, rfl⟩ := h
  · exact ⟨.byte, rfl, rfl, rfl, rfl⟩
  · exact ⟨.half, rfl, rfl, rfl, rfl⟩
  · exact ⟨.word, rfl, rfl, rfl, rfl⟩

/-- A store's operands are determined by the instruction. -/
theorem storeAccess_unique {rt rt' rs rs' : RegIdx} {imm imm' : BitVec 16} {n n' : Nat}
    (h : storeAccess i rt rs imm n) (h' : storeAccess i rt' rs' imm' n') : rt' = rt ∧ rs' = rs ∧ imm' = imm ∧ n' = n := by
  obtain ⟨rfl, rfl⟩ | ⟨rfl, rfl⟩ | ⟨rfl, rfl⟩ := h <;> simpa [storeAccess, eq_comm, and_assoc, and_left_comm] using h'

theorem loadInto_of_fails {w : Width} {rs : RegIdx} {imm : BitVec 16} {k : FaultKind}
    (h : AccessFails k (effectiveAddress s rs imm) w.bytes) (ext : Word → Word) (rt : RegIdx) :
    loadInto w ext rt imm rs s = .next (raiseFault k (effectiveAddress s rs imm) s) := by
  simp [loadInto, checkAccess_load_fails.mpr h]

theorem loadInto_of_accessible {w : Width} {rs : RegIdx} {imm : BitVec 16}
    (h : DataAccessible (effectiveAddress s rs imm) w.bytes) (ext : Word → Word) (rt : RegIdx) :
    loadInto w ext rt imm rs s = .next (s.setReg rt (ext (s.mem.read w (effectiveAddress s rs imm).toNat))).advance := by
  simp [loadInto, (checkAccess_load _ w).mpr h]

theorem storeFrom_of_fails {w : Width} {rs : RegIdx} {imm : BitVec 16} {k : FaultKind}
    (h : AccessFails k (effectiveAddress s rs imm) w.bytes) (rt : RegIdx) :
    storeFrom w rt imm rs s = .next (raiseFault k (effectiveAddress s rs imm) s) := by
  simp [storeFrom, checkAccess_store_fails.mpr h]

theorem storeFrom_of_accessible {w : Width} {rs : RegIdx} {imm : BitVec 16}
    (h : DataAccessible (effectiveAddress s rs imm) w.bytes) (rt : RegIdx) :
    storeFrom w rt imm rs s = .next (s.setMem (s.mem.write w (effectiveAddress s rs imm).toNat (s.reg rt))).advance := by
  simp [storeFrom, (checkAccess_store _ w).mpr h]

/-! ## Effects -/

/-- What an instruction does to a state, its operands already read. -/
inductive Effect where
  /-- Write one general register and advance. -/
  | write (rd : RegIdx) (v : Word)
  /-- Write HI and LO and advance. -/
  | writeHiLo (h l : Word)
  /-- Store the low bytes of a word and advance. -/
  | store (w : Width) (a v : Word)
  /-- Set `pc`. -/
  | goTo (a : Word)
  /-- Link in a register and set `pc`. -/
  | link (rd : RegIdx) (a : Word)
  /-- Take a fault. -/
  | fault (k : FaultKind) (a : Word)
  /-- End the run without a fault. -/
  | finish (r : Reason)

/-- The state after an effect. -/
@[simp] def Effect.apply (e : Effect) (s : State) : State :=
  match e with
  | .write rd v => (s.setReg rd v).advance
  | .writeHiLo h l => (s.setHiLo h l).advance
  | .store w a v => (s.setMem (s.mem.write w a.toNat v)).advance
  | .goTo a => s.redirect a
  | .link rd a => (s.setReg rd s.nextPc).redirect a
  | .fault k a => raiseFault k a s
  | .finish r => terminate r s

/-- The causes with which an instruction's execution faults (R221). -/
def ExecuteFault (i : Instr) (s : State) (k : FaultKind) (a : Word) : Prop :=
  (∃ rt rs imm n, (loadAccess i rs imm n ∨ storeAccess i rt rs imm n) ∧ a = effectiveAddress s rs imm ∧ AccessFails k a n) ∨
  (k = .arithmeticOverflow ∧ a = s.pc ∧ ∃ d e, exactResult i s d e ∧ OutsideSigned e) ∨
  (k = .other ∧ a = s.pc ∧ ((∃ code, i = .break_ code) ∨ (i = .syscall ∧ s.reg 2 ≠ 10)))

/-- Which effects an instruction can have in a state. -/
def Effect.Fits (i : Instr) (s : State) (e : Effect) : Prop :=
  match e with
  | .write rd _ => destination i = some rd ∧ (i.category = .arithmetic ∨ i.category = .memory)
  | .writeHiLo _ _ => writesHiLoPair i
  | .store w a v => ∃ rt rs imm, storeAccess i rt rs imm w.bytes ∧ a = effectiveAddress s rs imm ∧
      DataAccessible a w.bytes ∧ v = s.reg rt
  | .goTo _ => destination i = none ∧ i.category = .branch
  | .link rd _ => destination i = some rd ∧ i.category = .call
  | .fault k a => ExecuteFault i s k a
  | .finish r => (i = .halt ∧ r = .cliffTermination) ∨ (i = .syscall ∧ r = .normalCompletion ∧ s.reg 2 = 10)

/-- `e` is the effect of `i` in `s` and in every state with the same block. -/
def Effect.Of (i : Instr) (s : State) (e : Effect) : Prop :=
  e.Fits i s ∧ ∀ s', SameBlock s s' → exec i s' = .next (e.apply s')

theorem Effect.Of.exec_eq {e : Effect} (h : e.Of i s) : exec i s = .next (e.apply s) := h.2 s (SameBlock.refl s)

/-! ## The effect of each shared operation -/

theorem effect_of_writeResult {rd : RegIdx} {v : State → Word} (hd : destination i = some rd)
    (hc : i.category = .arithmetic) (he : ∀ s, exec i s = writeResult rd (v s) s)
    (hv : ∀ s', SameBlock s s' → v s' = v s) : ∃ e : Effect, e.Of i s :=
  ⟨.write rd (v s), ⟨hd, .inl hc⟩, fun s' h => by rw [he, hv s' h, writeResult_eq]; rfl⟩

theorem effect_of_writeHiLo {h l : State → Word} (hp : writesHiLoPair i) (he : ∀ s, exec i s = writeHiLo (h s) (l s) s)
    (hh : ∀ s', SameBlock s s' → h s' = h s) (hl : ∀ s', SameBlock s s' → l s' = l s) : ∃ e : Effect, e.Of i s :=
  ⟨.writeHiLo (h s) (l s), hp, fun s' hs => by rw [he, hh s' hs, hl s' hs, writeHiLo_eq]; rfl⟩

theorem effect_of_branchIf {c : State → Bool} {imm : BitVec 16} (hd : destination i = none) (hc : i.category = .branch)
    (he : ∀ s, exec i s = branchIf (c s) imm s) (hv : ∀ s', SameBlock s s' → c s' = c s) : ∃ e : Effect, e.Of i s := by
  refine ⟨.goTo (if c s then branchTarget s imm else s.nextPc), ⟨hd, hc⟩, fun s' h => ?_⟩
  rw [he, hv s' h, ← h.branchTarget, ← h.nextPc]
  cases c s <;> rfl

theorem effect_of_exactResult {d : RegIdx} {x : Int} (hx : exactResult i s d x) : ∃ e : Effect, e.Of i s := by
  by_cases hout : OutsideSigned x
  · refine ⟨.fault .arithmeticOverflow s.pc, .inr (.inl ⟨rfl, rfl, d, x, hx, hout⟩), fun s' h => ?_⟩
    rw [exec_of_exactResult (h.exactResult hx), writeOrOverflow_of_outside hout, h.pc]
    rfl
  · refine ⟨.write d (BitVec.ofInt 32 x), ⟨destination_of_exactResult hx, .inl (category_of_exactResult hx)⟩,
      fun s' h => ?_⟩
    rw [exec_of_exactResult (h.exactResult hx), writeOrOverflow_of_fits hout]
    rfl

/-- An access passes its check or fails it with one fault kind. -/
theorem accessible_or_fails (a : Word) (w : Width) : DataAccessible a w.bytes ∨ ∃ k, AccessFails k a w.bytes := by
  cases h : checkAccess a w .load with
  | none => exact .inl ((checkAccess_load a w).mp h)
  | some k => exact .inr ⟨k, checkAccess_load_fails.mp h⟩

theorem effect_of_loadAccess {rs : RegIdx} {imm : BitVec 16} {n : Nat} (hl : loadAccess i rs imm n) :
    ∃ e : Effect, e.Of i s := by
  obtain ⟨w, ext, rt, rfl, hd, hc, he⟩ := exec_of_loadAccess hl
  rcases accessible_or_fails (effectiveAddress s rs imm) w with ha | ⟨k, hf⟩
  · refine ⟨.write rt (ext (s.mem.read w (effectiveAddress s rs imm).toNat)), ⟨hd, .inr hc⟩, fun s' h => ?_⟩
    rw [he, loadInto_of_accessible (by rwa [h.effectiveAddress]), h.effectiveAddress, h.mem]
    rfl
  · refine ⟨.fault k (effectiveAddress s rs imm), .inl ⟨0, rs, imm, _, .inl hl, rfl, hf⟩, fun s' h => ?_⟩
    rw [he, loadInto_of_fails (k := k) (by rwa [h.effectiveAddress]), h.effectiveAddress]
    rfl

theorem effect_of_storeAccess {rt rs : RegIdx} {imm : BitVec 16} {n : Nat} (hst : storeAccess i rt rs imm n) :
    ∃ e : Effect, e.Of i s := by
  obtain ⟨w, rfl, _, _, he⟩ := exec_of_storeAccess hst
  rcases accessible_or_fails (effectiveAddress s rs imm) w with ha | ⟨k, hf⟩
  · refine ⟨.store w (effectiveAddress s rs imm) (s.reg rt), ⟨rt, rs, imm, hst, rfl, ha, rfl⟩, fun s' h => ?_⟩
    rw [he, storeFrom_of_accessible (by rwa [h.effectiveAddress]), h.effectiveAddress, h.reg]
    rfl
  · refine ⟨.fault k (effectiveAddress s rs imm), .inl ⟨rt, rs, imm, _, .inr hst, rfl, hf⟩, fun s' h => ?_⟩
    rw [he, storeFrom_of_fails (k := k) (by rwa [h.effectiveAddress]), h.effectiveAddress]
    rfl

theorem effect_of_syscall : ∃ e : Effect, e.Of .syscall s := by
  by_cases h2 : s.reg 2 = 10
  · exact ⟨.finish .normalCompletion, .inr ⟨rfl, rfl, h2⟩, fun s' h =>
      if_pos (by rw [h.reg, h2]; rfl)⟩
  · refine ⟨.fault .other s.pc, .inr (.inr ⟨rfl, rfl, .inr ⟨rfl, h2⟩⟩), fun s' h => ?_⟩
    rw [← h.pc]
    exact if_neg (by rw [h.reg]; exact h2)

theorem effect_of_divide {q r : State → Word} {rt : RegIdx} (hp : writesHiLoPair i)
    (he : ∀ s, exec i s = if s.reg rt = 0 then divByZero s else writeHiLo (r s) (q s) s)
    (hr : ∀ s', SameBlock s s' → r s' = r s) (hq : ∀ s', SameBlock s s' → q s' = q s) : ∃ e : Effect, e.Of i s := by
  refine ⟨.writeHiLo (if s.reg rt = 0 then s.hi else r s) (if s.reg rt = 0 then s.lo else q s), hp, fun s' h => ?_⟩
  rw [he, h.reg, hr s' h, hq s' h, ← h.hi, ← h.lo]
  by_cases hz : s.reg rt = 0 <;> simp only [hz, ↓reduceIte] <;> rfl

/-- Every instruction has an effect in every state, the same in every state with the same block (R230). -/
theorem exec_effect (i : Instr) (s : State) : ∃ e : Effect, e.Of i s := by
  cases i
  case halt => exact ⟨.finish .cliffTermination, .inl ⟨rfl, rfl⟩, fun _ _ => rfl⟩
  case syscall => exact effect_of_syscall
  case break_ code => exact ⟨.fault .other s.pc, .inr (.inr ⟨rfl, rfl, .inl ⟨code, rfl⟩⟩), fun s' h => by rw [← h.pc]; rfl⟩
  case add rd rs rt => exact effect_of_exactResult (.inl ⟨rs, rt, rfl, rfl⟩)
  case sub rd rs rt => exact effect_of_exactResult (.inr (.inl ⟨rs, rt, rfl, rfl⟩))
  case addi rt rs imm => exact effect_of_exactResult (.inr (.inr ⟨rs, imm, rfl, rfl⟩))
  case lb rt imm rs => exact effect_of_loadAccess (.inl ⟨rt, rfl, rfl⟩)
  case lbu rt imm rs => exact effect_of_loadAccess (.inr (.inl ⟨rt, rfl, rfl⟩))
  case lh rt imm rs => exact effect_of_loadAccess (.inr (.inr (.inl ⟨rt, rfl, rfl⟩)))
  case lhu rt imm rs => exact effect_of_loadAccess (.inr (.inr (.inr (.inl ⟨rt, rfl, rfl⟩))))
  case lw rt imm rs => exact effect_of_loadAccess (.inr (.inr (.inr (.inr ⟨rt, rfl, rfl⟩))))
  case sb rt imm rs => exact effect_of_storeAccess (.inl ⟨rfl, rfl⟩)
  case sh rt imm rs => exact effect_of_storeAccess (.inr (.inl ⟨rfl, rfl⟩))
  case sw rt imm rs => exact effect_of_storeAccess (.inr (.inr ⟨rfl, rfl⟩))
  case j target => exact ⟨.goTo (jumpTarget s target), ⟨rfl, rfl⟩, fun s' h => by rw [← h.jumpTarget]; rfl⟩
  case jr rs => exact ⟨.goTo (s.reg rs), ⟨rfl, rfl⟩, fun s' h => by rw [← h.reg]; rfl⟩
  case jal target => exact ⟨.link 31 (jumpTarget s target), ⟨rfl, rfl⟩, fun s' h => by rw [← h.jumpTarget]; rfl⟩
  case jalr rd rs => exact ⟨.link rd (s.reg rs), ⟨rfl, rfl⟩, fun s' h => by rw [← h.reg]; rfl⟩
  case beq | bne | blez | bgtz | bltz | bgez =>
    exact effect_of_branchIf rfl rfl (fun _ => rfl) (fun _ h => by simp only [h.reg])
  case mult rs rt =>
    exact effect_of_writeHiLo (.inl ⟨rs, rt, rfl⟩) (fun _ => rfl) (fun _ h => by simp only [h.reg])
      (fun _ h => by simp only [h.reg])
  case multu rs rt =>
    exact effect_of_writeHiLo (.inr (.inl ⟨rs, rt, rfl⟩)) (fun _ => rfl) (fun _ h => by simp only [h.reg])
      (fun _ h => by simp only [h.reg])
  case div rs rt =>
    exact effect_of_divide (.inr (.inr (.inl ⟨rs, rt, rfl⟩))) (fun _ => rfl) (fun _ h => by simp only [h.reg])
      (fun _ h => by simp only [h.reg])
  case divu rs rt =>
    exact effect_of_divide (.inr (.inr (.inr (.inl ⟨rs, rt, rfl⟩)))) (fun _ => rfl) (fun _ h => by simp only [h.reg])
      (fun _ h => by simp only [h.reg])
  case mthi rs =>
    exact effect_of_writeHiLo (.inr (.inr (.inr (.inr (.inl ⟨rs, rfl⟩))))) (fun _ => rfl) (fun _ h => h.reg rs)
      (fun _ h => h.lo)
  case mtlo rs =>
    exact effect_of_writeHiLo (.inr (.inr (.inr (.inr (.inr ⟨rs, rfl⟩))))) (fun _ => rfl) (fun _ h => h.hi)
      (fun _ h => h.reg rs)
  case mfhi => exact effect_of_writeResult rfl rfl (fun _ => rfl) (fun _ h => h.hi)
  case mflo => exact effect_of_writeResult rfl rfl (fun _ => rfl) (fun _ h => h.lo)
  case lui => exact effect_of_writeResult rfl rfl (fun _ => rfl) (fun _ _ => rfl)
  case sllv | srlv | srav => exact effect_of_writeResult rfl rfl (fun _ => rfl) (fun _ h => by simp only [h.reg, h.shiftVar])
  case sll | srl | sra | addu | subu | and | or | xor | nor | slt | sltu | addiu | slti | sltiu | andi | ori | xori =>
    exact effect_of_writeResult rfl rfl (fun _ => rfl) (fun _ h => by simp only [h.reg])

end Sys2Proof.Machine
end

section
/-! PROOF. What every effect keeps: the frame (R28, R33, R50), what a destination of register 0 leaves (R23), and that two states with
the same block stay alike. -/

namespace Sys2Proof.Machine

variable {s s' : State} {i : Instr}

/-! ## Faults and running effects -/

theorem takesFault_raiseFault (k : FaultKind) (a : Word) (s : State) : TakesFault k a s (raiseFault k a s) :=
  ⟨⟨_, rfl, rfl, rfl⟩, rfl, rfl, ⟨rfl, rfl, rfl, rfl, rfl⟩,
    ⟨fun _ => rfl, ⟨rfl, rfl⟩, ⟨fun _ => rfl, fun _ => rfl⟩, rfl⟩, rfl⟩

/-- An effect that does not end the run leaves the run controller's state alone (R33). -/
theorem Effect.keepsControl {e : Effect} (h : (e.apply s).runState = .running) : KeepsControl s (e.apply s) := by
  cases e
  case fault | finish => simp at h
  all_goals exact ⟨rfl, rfl, rfl, rfl, rfl, rfl, rfl, rfl, rfl, rfl, rfl⟩

theorem exec_of_loadAccess_fails {rs : RegIdx} {imm : BitVec 16} {n : Nat} {k : FaultKind} (hl : loadAccess i rs imm n)
    (hf : AccessFails k (effectiveAddress s rs imm) n) :
    exec i s = .next (raiseFault k (effectiveAddress s rs imm) s) := by
  obtain ⟨w, ext, rt, rfl, -, -, he⟩ := exec_of_loadAccess hl
  rw [he, loadInto_of_fails hf]

/-! ## The frame -/

theorem Effect.Fits.keepsReg {e : Effect} (he : e.Fits i s) {r : RegIdx} (hr : destination i ≠ some r) :
    (e.apply s).reg r = s.reg r := by
  cases e with
  | write rd v => exact reg_setReg_other s v fun h => hr (h ▸ he.1)
  | link rd a => exact reg_setReg_other s _ fun h => hr (h ▸ he.1)
  | _ => rfl

theorem Effect.Fits.keepsHiLo {e : Effect} (he : e.Fits i s) (hp : ¬ writesHiLoPair i) : KeepsHiLo s (e.apply s) := by
  cases e with
  | writeHiLo h l => exact absurd he hp
  | _ => exact ⟨rfl, rfl⟩

theorem Effect.Fits.keepsMemory {e : Effect} (he : e.Fits i s) (hst : ∀ rt rs imm n, ¬ storeAccess i rt rs imm n) :
    KeepsMemory s (e.apply s) := by
  cases e with
  | store w a v =>
    obtain ⟨rt, rs, imm, hacc, -⟩ := he
    exact absurd hacc (hst rt rs imm _)
  | _ => exact ⟨fun _ => rfl, fun _ => rfl⟩

/-- A store changes the bytes of its access alone (R59, R61). -/
theorem Effect.Fits.keepsBytes {e : Effect} (he : e.Fits i s) (hw : s.mem.wf) {rt rs : RegIdx} {imm : BitVec 16} {n : Nat}
    (hst : storeAccess i rt rs imm n) {x : Nat}
    (hx : x < (effectiveAddress s rs imm).toNat ∨ (effectiveAddress s rs imm).toNat + n ≤ x) :
    (e.apply s).mem.byte x = s.mem.byte x := by
  cases e with
  | store w a v =>
    obtain ⟨rt', rs', imm', hacc, rfl, -⟩ := he
    obtain ⟨-, rfl, rfl, rfl⟩ := storeAccess_unique hst hacc
    exact (byte_write hw w _ v x).trans (if_neg (by omega))
  | _ => rfl

/-! ## Register 0 as destination -/

theorem destination_of_writesHiLoPair (h : writesHiLoPair i) : destination i = none := by
  obtain ⟨_, _, rfl⟩ | ⟨_, _, rfl⟩ | ⟨_, _, rfl⟩ | ⟨_, _, rfl⟩ | ⟨_, rfl⟩ | ⟨_, rfl⟩ := h <;> rfl

/-- An instruction with a destination that passes its checks takes no fault. -/
theorem not_executeFault {d : RegIdx} {k : FaultKind} {a : Word} (hd : destination i = some d)
    (hfit : ∀ e, exactResult i s d e → ¬ OutsideSigned e)
    (hacc : ∀ rs imm n, loadAccess i rs imm n → DataAccessible (effectiveAddress s rs imm) n) : ¬ ExecuteFault i s k a := by
  rintro (⟨rt, rs, imm, n, hl | hst, rfl, hf⟩ | ⟨-, -, d', e, hx, hout⟩ | ⟨-, -, ⟨code, rfl⟩ | ⟨rfl, -⟩⟩)
  · exact hf.not_accessible (hacc rs imm n hl)
  · obtain ⟨_, -, hnone, -⟩ := exec_of_storeAccess hst
    simp [hnone] at hd
  · obtain rfl : d' = d := by simpa [destination_of_exactResult hx] using hd
    exact hfit e hx hout
  · simp [destination] at hd
  · simp [destination] at hd

/-- With destination 0 an instruction that is no call and takes no fault advances `pc` alone (R23). -/
theorem Effect.Fits.apply_of_destination_zero {e : Effect} (he : e.Fits i s) (hd : destination i = some 0)
    (hcall : i.category ≠ .call) (hfault : ∀ k a, ¬ ExecuteFault i s k a) : e.apply s = s.advance := by
  cases e with
  | write rd v =>
    obtain rfl : rd = 0 := by simpa [he.1] using hd
    simp only [apply, setReg_zero]
  | writeHiLo h l => simp [destination_of_writesHiLoPair he] at hd
  | store w a v =>
    obtain ⟨_, _, _, hst, -⟩ := he
    obtain ⟨_, -, hnone, -⟩ := exec_of_storeAccess hst
    simp [hnone] at hd
  | goTo a => simp [he.1] at hd
  | link rd a => exact absurd he.2 hcall
  | fault k a => exact absurd he (hfault k a)
  | finish r => rcases he with ⟨rfl, -⟩ | ⟨rfl, -⟩ <;> simp [destination] at hd

/-! ## Two states with the same block -/

theorem sameBlock_setReg (h : SameBlock s s') (r : RegIdx) (v : Word) : SameBlock (s.setReg r v) (s'.setReg r v) :=
  ⟨fun q => by simp only [reg_setReg, h.reg], h.pc.symm, h.hi.symm, h.lo.symm, h.mem.symm⟩

theorem sameBlock_redirect (h : SameBlock s s') (a : Word) : SameBlock (s.redirect a) (s'.redirect a) :=
  ⟨h.1, rfl, h.hi.symm, h.lo.symm, h.mem.symm⟩

theorem sameBlock_advance (h : SameBlock s s') : SameBlock s.advance s'.advance :=
  ⟨h.1, h.nextPc.symm, h.hi.symm, h.lo.symm, h.mem.symm⟩

theorem Effect.apply_sameBlock (h : SameBlock s s') (e : Effect) : SameBlock (e.apply s) (e.apply s') := by
  cases e with
  | write rd v => exact sameBlock_advance (sameBlock_setReg h rd v)
  | writeHiLo hi lo => exact sameBlock_advance ⟨h.1, h.pc.symm, rfl, rfl, h.mem.symm⟩
  | store w a v => exact sameBlock_advance ⟨h.1, h.pc.symm, h.hi.symm, h.lo.symm, by simp only [setMem_mem, h.mem]⟩
  | goTo a => exact sameBlock_redirect h a
  | link rd a => rw [apply, apply, h.nextPc]; exact sameBlock_redirect (sameBlock_setReg h rd _) a
  | fault | finish => exact h

/-- The run state, fault record and last reason after an effect are determined by those before it. -/
theorem Effect.apply_ending (hr : s'.runState = s.runState) (hf : s'.faultRecord = s.faultRecord)
    (hl : s'.lastReason = s.lastReason) (e : Effect) :
    (e.apply s').runState = (e.apply s).runState ∧ (e.apply s').faultRecord = (e.apply s).faultRecord ∧
    (e.apply s').lastReason = (e.apply s).lastReason := by
  cases e with
  | fault => exact ⟨rfl, rfl, rfl⟩
  | finish => exact ⟨rfl, hf, rfl⟩
  | _ => exact ⟨hr, hf, hl⟩

/-- A core step has an effect that the block determines: that of its instruction, or a fetch or decode fault (R230). -/
theorem coreStep_effect (hr : s.runState = .running) :
    ∃ e : Effect, ∀ s', SameBlock s s' → s'.runState = .running → coreStep s' = .next (e.apply s') := by
  rcases coreStep_cases hr with ⟨k, hf, -⟩ | ⟨w, err, hf, hd, -⟩ | ⟨w, i, hf, hd, -⟩
  · refine ⟨.fault k s.pc, fun s' h hr' => ?_⟩
    simp [coreStep, hr', h.fetch, hf, h.pc]
  · refine ⟨.fault .invalidInstruction s.pc, fun s' h hr' => ?_⟩
    simp [coreStep, hr', h.fetch, hf, hd, h.pc]
  · obtain ⟨e, -, he⟩ := exec_effect i s
    refine ⟨e, fun s' h hr' => ?_⟩
    rw [← he s' h]
    simp [coreStep, hr', h.fetch, hf, hd]

end Sys2Proof.Machine
end

section
/-! PROOF. The invariant under an effect, under the end of an invocation and under the step boundary: the clauses on the block apart
from those on the run controller. -/

namespace Sys2Proof.Machine

variable {s t : State} {i : Instr}

/-! ## The block part of the invariant -/

/-- The clauses of the invariant that speak of the hardware block. -/
structure State.BlockInv (s : State) : Prop where
  memoryForm : s.mem.wf
  memoryMapped : ∀ a ∈ s.mem.present, InFetchRange a 4 ∨ InDataRange a 4
  zeroRegister : s.regs[0] = 0

theorem State.Inv.blockInv (h : s.Inv) : s.BlockInv := ⟨h.memoryForm, h.memoryMapped, h.zeroRegister⟩

theorem State.BlockInv.congr (h : s.BlockInv) (hm : t.mem = s.mem) (hr : t.regs = s.regs) : t.BlockInv :=
  ⟨hm ▸ h.memoryForm, hm ▸ h.memoryMapped, by rw [hr]; exact h.zeroRegister⟩

theorem State.BlockInv.setReg (h : s.BlockInv) (r : RegIdx) (v : Word) : (s.setReg r v).BlockInv :=
  ⟨h.memoryForm, h.memoryMapped, (writeRegs_slot_zero s.regs r v).trans h.zeroRegister⟩

/-- The word around an accessible data address lies in a data region (R52, R61). -/
theorem word_inDataRange_of_accessible {a : Word} {w : Width} (h : DataAccessible a w.bytes) :
    InDataRange (a.toNat - a.toNat % 4) 4 := by
  obtain ⟨hal, hin⟩ := h
  cases w <;> simp only [Width.bytes, InDataRange] at hal hin ⊢ <;> omega

theorem State.BlockInv.setMem_write (h : s.BlockInv) {w : Width} {a : Word} (ha : DataAccessible a w.bytes) (v : Word) :
    (s.setMem (s.mem.write w a.toNat v)).BlockInv := by
  refine ⟨write_wf h.memoryForm v ha.1 a.isLt, fun x hx => ?_, h.zeroRegister⟩
  rw [setMem_mem, present_write, mem_insertAddress] at hx
  rcases hx with rfl | hx
  · exact .inr (word_inDataRange_of_accessible ha)
  · exact h.memoryMapped x hx

theorem State.BlockInv.apply (h : s.BlockInv) {e : Effect} (he : e.Fits i s) : (e.apply s).BlockInv := by
  cases e with
  | write rd v => exact (h.setReg rd v).congr rfl rfl
  | link rd a => exact (h.setReg rd s.nextPc).congr rfl rfl
  | store w a v =>
    obtain ⟨_, _, _, _, _, ha, _⟩ := he
    exact (h.setMem_write ha v).congr rfl rfl
  | _ => exact h.congr rfl rfl

/-! ## The invariant -/

/-- The invariant survives what leaves the run controller's state alone. -/
theorem State.BlockInv.inv_of_keepsControl (hb : t.BlockInv) (h : s.Inv) (hk : KeepsControl s t) : t.Inv := by
  obtain ⟨hrun, hrec, hreason, hcount, hpause, hstop, hsnap, htrans, hmode, hlimit, -⟩ := hk
  constructor
  case memoryForm => exact hb.memoryForm
  case memoryMapped => exact hb.memoryMapped
  case zeroRegister => exact hb.zeroRegister
  case snapshotAscending => rw [hsnap]; exact h.snapshotAscending
  case transientListed => rw [htrans, hsnap, hmode]; exact h.transientListed
  case clearWhenStopped => rw [BookkeepingClear, hrun, hcount, hpause, hstop, hsnap, htrans]; exact h.clearWhenStopped
  case idleFresh => rw [hrun, hreason]; exact h.idleFresh
  case endedByReason => rw [hrun, hreason]; exact h.endedByReason
  case recordAfterFault => rw [hrec, hreason]; exact h.recordAfterFault
  case withinLimit => rw [hrun, hlimit, hcount]; exact h.withinLimit
  case singleMode => rw [hrun, hmode, hlimit, hsnap]; exact h.singleMode

/-- A running machine has no fault record. -/
theorem State.Inv.faultRecord_of_running (h : s.Inv) (hr : s.runState = .running) : s.faultRecord = none := by
  rw [← Option.not_isSome_iff_eq_none, h.recordAfterFault]
  intro hl
  have hend : s.runState = .terminated := h.endedByReason.mpr ⟨.fault, hl, rfl⟩
  simp [hr] at hend

/-- The end of an invocation establishes the controller's part of the invariant, whatever it was before (R253). -/
theorem State.BlockInv.endInvocation_inv (hb : s.BlockInv) {st : RunState} {r : Reason}
    (hst : st = if r.ends then .terminated else .paused) (hrec : s.faultRecord.isSome = true ↔ r = .fault) :
    (endInvocation st r s).Inv := by
  subst hst
  constructor
  case memoryForm => exact hb.memoryForm
  case memoryMapped => exact hb.memoryMapped
  case zeroRegister => exact hb.zeroRegister
  case snapshotAscending => exact List.Pairwise.nil
  case transientListed => simp
  case clearWhenStopped => exact fun _ => ⟨rfl, rfl, rfl, rfl, rfl⟩
  case recordAfterFault => simpa using hrec
  all_goals cases r <;> simp [Reason.ends]

theorem State.BlockInv.raiseFault_inv (hb : s.BlockInv) (k : FaultKind) (a : Word) : (raiseFault k a s).Inv :=
  endInvocation_inv (s := { s with faultRecord := some ⟨k, a, Config.faultMessage k.code a⟩ }) (hb.congr rfl rfl) rfl
    (iff_of_true rfl rfl)

theorem State.BlockInv.endInvocation_inv_of_no_record (hb : s.BlockInv) (hnone : s.faultRecord = none) {st : RunState}
    {r : Reason} (hst : st = if r.ends then .terminated else .paused) (hr : r ≠ .fault) : (endInvocation st r s).Inv :=
  hb.endInvocation_inv hst (by simp [hnone, hr])

theorem Effect.Fits.apply_inv {e : Effect} (he : e.Fits i s) (h : s.Inv) (hr : s.runState = .running) :
    (e.apply s).Inv := by
  have hnone := h.faultRecord_of_running hr
  cases e
  case fault k a => exact h.blockInv.raiseFault_inv k a
  case finish r =>
    rcases he with ⟨-, rfl⟩ | ⟨-, rfl, -⟩
    · exact h.blockInv.endInvocation_inv_of_no_record hnone rfl (by decide)
    · exact h.blockInv.endInvocation_inv_of_no_record hnone rfl (by decide)
  all_goals exact (h.blockInv.apply he).inv_of_keepsControl h (Effect.keepsControl hr)

/-- A core step of a running machine keeps the invariant. -/
theorem coreStep_inv (h : s.Inv) (hr : s.runState = .running) (hc : coreStep s = .next t) : t.Inv := by
  rcases coreStep_cases hr with ⟨k, -, heq⟩ | ⟨_, _, -, -, heq⟩ | ⟨_, i, -, -, heq⟩
  · obtain rfl : raiseFault k s.pc s = t := by simpa [heq] using hc
    exact h.blockInv.raiseFault_inv k s.pc
  · obtain rfl : raiseFault .invalidInstruction s.pc s = t := by simpa [heq] using hc
    exact h.blockInv.raiseFault_inv .invalidInstruction s.pc
  · obtain ⟨e, he⟩ := exec_effect i s
    obtain rfl : e.apply s = t := by simpa [heq, he.exec_eq] using hc
    exact he.1.apply_inv h hr

/-- Counting the step and taking the requests keep the invariant while the step limit is not reached (R246). -/
theorem State.Inv.counted (h : s.Inv) (hr : s.runState = .running)
    (hlim : limitReached (takeSignals (countStep s)) = false) : (takeSignals (countStep s)).Inv := by
  constructor
  case memoryForm => simpa using h.memoryForm
  case memoryMapped => simpa using h.memoryMapped
  case zeroRegister => simpa using h.zeroRegister
  case snapshotAscending => simpa using h.snapshotAscending
  case transientListed => simpa using h.transientListed
  case clearWhenStopped => simp [hr]
  case idleFresh => simpa using h.idleFresh
  case endedByReason => simpa using h.endedByReason
  case recordAfterFault => simpa using h.recordAfterFault
  case singleMode => simpa using h.singleMode
  case withinLimit =>
    intro _ hpos
    have hlt := h.withinLimit hr
    simp [limitReached] at hlim hpos ⊢
    have hne := hlim hpos
    have := hlt hpos
    omega

/-- The step boundary keeps the invariant (R245, R253). -/
theorem State.Inv.stepBoundary (h : s.Inv) : (stepBoundary s).Inv := by
  by_cases hr : s.runState = .running
  · rw [stepBoundary_running hr]
    have hb : (takeSignals (countStep s)).BlockInv := h.blockInv.congr (by simp) (by simp)
    have hnone : (takeSignals (countStep s)).faultRecord = none := by simpa using h.faultRecord_of_running hr
    rcases boundaryTests_cases (takeSignals (countStep s)) with
      ⟨_, e⟩ | ⟨_, _, e⟩ | ⟨_, _, _, e⟩ | ⟨_, _, _, _, e⟩ | ⟨hlim, _, _, _, e⟩
    case inr.inr.inr.inr => rw [e]; exact h.counted hr hlim
    all_goals rw [e]; exact hb.endInvocation_inv_of_no_record hnone rfl (by decide)
  · rw [stepBoundary_ended hr]
    exact h

end Sys2Proof.Machine
end

section
/-! PROOF. The machine after reset and after load: what the image's writes leave of each word (R37, R281). -/

namespace Sys2Proof.Machine

/-! ## The machine after reset and after load -/

theorem reg_reset_other {r : RegIdx} (h28 : r ≠ 28) (h29 : r ≠ 29) : State.reset.reg r = 0 := by
  revert r
  decide

theorem readWordOrAbsent_of_absent {m : Memory} {a : Nat} (h : a ∉ m.present) : m.readWordOrAbsent a = none := by
  simp [Memory.readWordOrAbsent, Memory.isPresent, h]

theorem readWordOrAbsent_of_present {m : Memory} {a : Nat} (h : a ∈ m.present) : m.readWordOrAbsent a = some (m.word a) := by
  simp [Memory.readWordOrAbsent, Memory.isPresent, h]

/-- A word write leaves every other aligned word as it was (R59). -/
theorem word_write_other {m : Memory} (hw : m.wf) {a b : Nat} (ha : a % 4 = 0) (hb : b % 4 = 0) (hne : b ≠ a) (v : Word) :
    (m.write .word a v).word b = m.word b := by
  have hbyte : ∀ k < 4, (m.write .word a v).byte (b + k) = m.byte (b + k) := fun k hk => by
    rw [byte_write hw, if_neg (by simp only [Width.bytes]; omega)]
  have hbyte₀ : (m.write .word a v).byte b = m.byte b := hbyte 0 (by omega)
  rw [Memory.word, Memory.word, hbyte₀, hbyte 1 (by omega), hbyte 2 (by omega), hbyte 3 (by omega)]

/-- Writes of words at other aligned addresses leave the word at `a` as it was. -/
theorem word_foldl_write_other {a : Nat} (ha : a % 4 = 0) (ps : List (Word × Word)) {m : Memory} (hw : m.wf)
    (hps : ∀ p ∈ ps, p.1.toNat % 4 = 0 ∧ a ≠ p.1.toNat) :
    (ps.foldl (fun m p => m.write .word p.1.toNat p.2) m).word a = m.word a := by
  induction ps generalizing m with
  | nil => rfl
  | cons p ps ih =>
    obtain ⟨hal, hne⟩ := hps p (by simp)
    rw [List.foldl_cons, ih (write_wf hw p.2 hal p.1.isLt) fun q hq => hps q (by simp [hq]),
      word_write_other hw hal ha hne]

theorem present_foldl_write {x : Nat} (ps : List (Word × Word)) (hps : ∀ p ∈ ps, p.1.toNat % 4 = 0) (m : Memory) :
    x ∈ (ps.foldl (fun m p => m.write .word p.1.toNat p.2) m).present ↔ (∃ p ∈ ps, x = p.1.toNat) ∨ x ∈ m.present := by
  induction ps generalizing m with
  | nil => simp
  | cons p ps ih =>
    have hal := hps p (by simp)
    rw [List.foldl_cons, ih (fun q hq => hps q (by simp [hq])), present_write, mem_insertAddress, hal]
    simp only [Nat.sub_zero, List.mem_cons, exists_eq_or_imp]
    rw [or_assoc, or_left_comm]

/-- After writes at distinct aligned addresses each of them holds its word. -/
theorem word_foldl_write {ps : List (Word × Word)} (hnd : (ps.map Prod.fst).Nodup) (hal : ∀ p ∈ ps, p.1.toNat % 4 = 0)
    {m : Memory} (hw : m.wf) {p : Word × Word} (hp : p ∈ ps) :
    (ps.foldl (fun m p => m.write .word p.1.toNat p.2) m).word p.1.toNat = p.2 := by
  induction ps generalizing m with
  | nil => cases hp
  | cons q ps ih =>
    obtain ⟨hq, hnd⟩ := List.nodup_cons.mp hnd
    have hw' : (m.write .word q.1.toNat q.2).wf := write_wf hw q.2 (hal q (by simp)) q.1.isLt
    rw [List.foldl_cons]
    rcases List.mem_cons.mp hp with rfl | hp
    · rw [word_foldl_write_other (hal p (by simp)) ps hw' fun q' hq' => ⟨hal q' (by simp [hq']), fun heq => hq ?_⟩,
        word_write hw]
      rw [BitVec.eq_of_toNat_eq heq]
      exact List.mem_map_of_mem hq'
    · exact ih hnd (fun q' hq' => hal q' (by simp [hq'])) hw' hp

theorem wellFormed_iff (img : ProgramImage) : img.wellFormed = true ↔
    (img.words.map Prod.fst).Nodup ∧ ∀ p ∈ img.words, p.1.toNat % 4 = 0 ∧ mapped p.1.toNat = true := by
  simp [ProgramImage.wellFormed]

theorem present_imageMemory {x : Nat} {ps : List (Word × Word)} (hal : ∀ p ∈ ps, p.1.toNat % 4 = 0) :
    x ∈ (imageMemory ps).present ↔ ∃ p ∈ ps, x = p.1.toNat := by
  rw [imageMemory, present_foldl_write ps hal]
  simp [Memory.empty]

theorem readWordOrAbsent_imageMemory {ps : List (Word × Word)} (hnd : (ps.map Prod.fst).Nodup)
    (hal : ∀ p ∈ ps, p.1.toNat % 4 = 0) {p : Word × Word} (hp : p ∈ ps) :
    (imageMemory ps).readWordOrAbsent p.1.toNat = some p.2 := by
  rw [readWordOrAbsent_of_present ((present_imageMemory hal).mpr ⟨p, hp, rfl⟩), imageMemory,
    word_foldl_write hnd hal empty_wf hp]

theorem readWordOrAbsent_imageMemory_absent {ps : List (Word × Word)} (hal : ∀ p ∈ ps, p.1.toNat % 4 = 0) {a : Word}
    (ha : a ∉ ps.map Prod.fst) : (imageMemory ps).readWordOrAbsent a.toNat = none := by
  refine readWordOrAbsent_of_absent fun h => ha ?_
  obtain ⟨p, hp, heq⟩ := (present_imageMemory hal).mp h
  rw [BitVec.eq_of_toNat_eq heq]
  exact List.mem_map_of_mem hp

end Sys2Proof.Machine
end

section
/-! PROOF. The statements about the state: reset and load, the invariant, and what every instruction does and leaves unchanged. -/

namespace Sys2Proof.Proofs

open Sys2Proof.Machine

/-- Settles O10: the core step keeps the invariant because every effect does, and the step boundary keeps it too. -/
theorem stepKeepsTheInvariant : Obligations.StepKeepsTheInvariant := by
  intro s t h hs
  by_cases hr : s.runState = .running
  · obtain ⟨e, he⟩ := coreStep_effect hr
    have hc := he s (SameBlock.refl s) hr
    obtain rfl : stepBoundary (e.apply s) = t := by simpa [step_running hr hc] using hs
    exact (coreStep_inv h hr hc).stepBoundary
  · obtain rfl : s = t := by simpa [step_stopped hr] using hs
    exact h

/-- Settles O8: the image's writes are at distinct aligned addresses, so each word read back is the one written. -/
theorem loadResetsTheMachine : Obligations.LoadResetsTheMachine := by
  intro s img hr hwf
  obtain ⟨hnd, hwords⟩ := (wellFormed_iff img).mp hwf
  have hal : ∀ p ∈ img.words, p.1.toNat % 4 = 0 := fun p hp => (hwords p hp).1
  refine ⟨loadImage img s, by simp [hostCall, hr, hwf], fun _ => rfl, rfl, rfl, rfl,
    fun p hp => readWordOrAbsent_imageMemory hnd hal hp, fun a ha => readWordOrAbsent_imageMemory_absent hal ha,
    rfl, rfl, ⟨rfl, rfl, rfl, rfl, rfl⟩, rfl, rfl, ?_⟩
  rintro rfl
  rfl

/-- Settles O46: of the effects that leave the machine running only jumps and calls do not advance. -/
theorem straightLineAdvancesByFour : Obligations.StraightLineAdvancesByFour := by
  intro i s t hcat _ hs ht
  obtain ⟨e, he⟩ := exec_effect i s
  obtain rfl : e.apply s = t := by simpa [he.exec_eq] using hs
  obtain ⟨hfits, -⟩ := he
  cases e with
  | write | writeHiLo | store => rfl
  | goTo | link =>
    obtain ⟨-, hc⟩ := hfits
    simp [hc] at hcat
  | fault | finish => simp at ht

/-- Settles O47: each clause by cases on the effect; a store's operands are determined by the instruction. -/
theorem everyInstructionKeepsItsFrame : Obligations.EveryInstructionKeepsItsFrame := by
  intro i s t hw hs
  obtain ⟨e, he⟩ := exec_effect i s
  obtain rfl : e.apply s = t := by simpa [he.exec_eq] using hs
  obtain ⟨hfits, -⟩ := he
  exact ⟨fun r hr => hfits.keepsReg hr, fun hp => hfits.keepsHiLo hp, fun hst => hfits.keepsMemory hst,
    fun rt rs imm n hst x hx => hfits.keepsBytes hw hst hx, fun _ hrun => Effect.keepsControl hrun⟩

/-- Settles O48: the block determines the effect of the core step, and an effect keeps two blocks alike. -/
theorem coreStepDependsOnTheBlockAlone : Obligations.CoreStepDependsOnTheBlockAlone := by
  intro s s' t t' hr hr' hblock hrec hreason hs hs'
  obtain ⟨e, he⟩ := coreStep_effect hr
  obtain rfl : e.apply s = t := by simpa [he s (SameBlock.refl s) hr] using hs
  obtain rfl : e.apply s' = t' := by simpa [he s' hblock hr'] using hs'
  exact ⟨e.apply_sameBlock hblock, e.apply_ending (hr.trans hr'.symm) hrec hreason⟩

/-- Settles O7: the reset state's fields are those of the table, read one by one. -/
theorem resetLeavesTheTableOfValues : Obligations.ResetLeavesTheTableOfValues :=
  ⟨rfl, rfl, rfl, fun _ h28 h29 => reg_reset_other h28 h29, rfl, rfl, rfl,
    fun _ => readWordOrAbsent_of_absent (by simp [State.reset, Memory.empty]), rfl, rfl, rfl, rfl, rfl, rfl, rfl, rfl⟩

/-- Settles O9: memory is empty, the bookkeeping is clear and no run has ended. -/
theorem resetMeetsTheInvariant : Obligations.ResetMeetsTheInvariant := by
  unfold Obligations.ResetMeetsTheInvariant
  constructor
  case memoryForm => exact empty_wf
  case clearWhenStopped => exact fun _ => ⟨rfl, rfl, rfl, rfl, rfl⟩
  all_goals simp [State.reset, Memory.empty]

/-- Settles O30: the trapping instructions and the loads fault before the destination is written, and a write to register 0
is ignored. -/
theorem zeroDestinationKeepsOtherEffects : Obligations.ZeroDestinationKeepsOtherEffects := by
  intro s i hd
  refine ⟨fun e hx hout => ?_, fun rs imm n hl => ⟨fun hal => ?_, fun hal hin => ?_⟩, ?_, fun hcall hfit hacc => ?_⟩
  · exact ⟨_, (exec_of_exactResult hx).trans (writeOrOverflow_of_outside hout 0 s), takesFault_raiseFault _ _ s⟩
  · exact ⟨_, exec_of_loadAccess_fails hl (.inl ⟨rfl, hal⟩), takesFault_raiseFault _ _ s⟩
  · exact ⟨_, exec_of_loadAccess_fails hl (.inr ⟨rfl, hal, hin⟩), takesFault_raiseFault _ _ s⟩
  · rintro rs rfl
    simp only [exec, execJalr, execJr, callTo_eq, setReg_zero]
  · obtain ⟨e, he⟩ := exec_effect i s
    rw [he.exec_eq, he.1.apply_of_destination_zero hd hcall fun _ _ => not_executeFault hd hfit hacc]
    rfl

end Sys2Proof.Proofs
end

section
/-! PROOF. What a read obtains: the bits of a word (R61), the number its bytes compose (R60, R64), and the zero of an absent word
(R57). -/

namespace Sys2Proof.Machine

variable {m : Memory}

/-! ## The bits of a word -/

theorem getLsbD_byteOfWord (v : Word) (k j : Nat) :
    (byteOfWord v k).getLsbD j = (decide (j < 8) && v.getLsbD (8 * k + j)) := by
  simp [byteOfWord]

/-- Bit `b` of a word is bit `b % 8` of its byte number `b / 8` (R51). -/
theorem getLsbD_word (m : Memory) (a : Nat) {b : Nat} (hb : b < 32) :
    (m.word a).getLsbD b = (m.byte (a + b / 8)).getLsbD (b % 8) := by
  rw [Memory.word, wordOfBytes]
  interval_cases b <;> simp

/-- A write replaces exactly the bits of its bytes in the enclosing word (R61). -/
theorem getLsbD_word_write (hw : m.wf) (w : Width) (a : Nat) (v : Word) {b : Nat} (hb : b < 32) :
    ((m.write w a v).word (a - a % 4)).getLsbD b =
      if 8 * (a % 4) ≤ b ∧ b < 8 * (a % 4) + 8 * w.bytes then v.getLsbD (b - 8 * (a % 4))
      else (m.word (a - a % 4)).getLsbD b := by
  rw [getLsbD_word _ _ hb, getLsbD_word _ _ hb, byte_write hw]
  by_cases hin : 8 * (a % 4) ≤ b ∧ b < 8 * (a % 4) + 8 * w.bytes
  · have hbit : 8 * (a - a % 4 + b / 8 - a) + b % 8 = b - 8 * (a % 4) := by omega
    rw [if_pos hin, if_pos (by omega), getLsbD_byteOfWord, hbit]
    simp [Nat.mod_lt]
  · rw [if_neg hin, if_neg (by omega)]

/-! ## The number of the bytes -/

/-- A byte joined above the bits of `x` adds its multiple of `2 ^ k`. -/
theorem toNat_or_byte_shiftLeft {n k : Nat} {x : BitVec n} (hx : x.toNat < 2 ^ k) (hk : k + 8 ≤ n) (b : Byte) :
    (x ||| b.setWidth n <<< k).toNat = x.toNat + 2 ^ k * b.toNat := by
  have hlt : b.toNat * 2 ^ k < 2 ^ n :=
    calc b.toNat * 2 ^ k < 2 ^ 8 * 2 ^ k := Nat.mul_lt_mul_of_pos_right b.isLt (by positivity)
      _ = 2 ^ (k + 8) := by rw [pow_add, mul_comm]
      _ ≤ 2 ^ n := Nat.pow_le_pow_right (by omega) hk
  have hb : (b.setWidth n).toNat = b.toNat := BitVec.toNat_setWidth_of_le (by omega)
  rw [BitVec.toNat_or, BitVec.toNat_shiftLeft, hb, Nat.shiftLeft_eq, Nat.mod_eq_of_lt hlt, Nat.or_comm, Nat.mul_comm,
    ← Nat.two_pow_add_eq_or_of_lt hx, Nat.add_comm]

theorem toNat_half (m : Memory) (a : Nat) : (m.half a).toNat = bytesValue m a 2 := by
  have h0 : ((m.byte a).setWidth 16).toNat = (m.byte a).toNat := BitVec.toNat_setWidth_of_le (by omega)
  rw [Memory.half, toNat_or_byte_shiftLeft (by rw [h0]; exact (m.byte a).isLt) (by omega), h0]
  simp [bytesValue]

theorem toNat_wordOfBytes (b0 b1 b2 b3 : Byte) :
    (wordOfBytes b0 b1 b2 b3).toNat = b0.toNat + 2 ^ 8 * b1.toNat + 2 ^ 16 * b2.toNat + 2 ^ 24 * b3.toNat := by
  have h0 : (b0.setWidth 32).toNat = b0.toNat := BitVec.toNat_setWidth_of_le (by omega)
  have h1 := toNat_or_byte_shiftLeft (k := 8) (x := b0.setWidth 32) (by omega) (by omega) b1
  have h2 := toNat_or_byte_shiftLeft (k := 16) (x := b0.setWidth 32 ||| b1.setWidth 32 <<< 8) (by omega) (by omega) b2
  rw [wordOfBytes, toNat_or_byte_shiftLeft (by omega) (by omega), h2, h1, h0]

theorem toNat_word (m : Memory) (a : Nat) : (m.word a).toNat = bytesValue m a 4 := by
  rw [Memory.word, toNat_wordOfBytes]
  simp only [bytesValue, Nat.add_assoc, Nat.reduceAdd]
  omega

/-- A read of any width is the number of its bytes, low byte first (R60, R64). -/
theorem toNat_read (m : Memory) (w : Width) (a : Nat) : (m.read w a).toNat = bytesValue m a w.bytes := by
  cases w with
  | byte => exact BitVec.toNat_setWidth_of_le (by omega)
  | half => exact (BitVec.toNat_setWidth_of_le (by omega)).trans (toNat_half m a)
  | word => exact toNat_word m a

/-! ## Absent words -/

theorem mem_of_lookupCell_ne_zero {cells : List Host.Cell} {a : Nat} (h : lookupCell cells a ≠ 0) :
    ∃ c ∈ cells, c.1 = a := by
  induction cells with
  | nil => exact absurd rfl h
  | cons c rest ih =>
    by_cases hc : c.1 = a
    · exact ⟨c, by simp, hc⟩
    · obtain ⟨d, hd, hda⟩ := ih (by simpa [lookupCell, hc] using h)
      exact ⟨d, by simp [hd], hda⟩

/-- Every byte of an absent word is zero (R57). -/
theorem byte_of_absent (hw : m.wf) {a : Nat} (h : m.isPresent (a - a % 4) = false) : m.byte a = 0 := by
  by_contra hne
  obtain ⟨c, hc, rfl⟩ := mem_of_lookupCell_ne_zero hne
  obtain ⟨-, hcells, -⟩ := hw
  exact of_decide_eq_false h (hcells c hc).2

theorem bytesValue_of_zero_bytes {a n : Nat} (h : ∀ x, a ≤ x → x < a + n → m.byte x = 0) : bytesValue m a n = 0 := by
  induction n generalizing a with
  | zero => rfl
  | succ n ih =>
    have hfirst : m.byte a = 0 := h a (by omega) (by omega)
    have hrest : bytesValue m (a + 1) n = 0 := ih fun x hx hx' => h x (by omega) (by omega)
    simp [bytesValue, hfirst, hrest]

/-- A read inside an absent word obtains zero (R57). -/
theorem read_of_absent (hw : m.wf) {w : Width} {a : Nat} (hal : a % w.bytes = 0) (h : m.isPresent (a - a % 4) = false) :
    m.read w a = 0 := by
  refine BitVec.eq_of_toNat_eq ((toNat_read m w a).trans (bytesValue_of_zero_bytes fun x hx hx' => byte_of_absent hw ?_))
  have hword : x - x % 4 = a - a % 4 := by cases w <;> simp only [Width.bytes] at hal hx' <;> omega
  rwa [hword]

theorem word_of_absent (hw : m.wf) {a : Nat} (hal : a % 4 = 0) (h : m.isPresent a = false) : m.word a = 0 :=
  read_of_absent (w := .word) hw hal (by rwa [hal])

end Sys2Proof.Machine
end

section
/-! PROOF. Accesses: the address and the fault of a load or store (R55, R190), the fault of a fetch (R63), and what a step does to
memory (R53, R59). -/

namespace Sys2Proof.Machine

variable {s t : State} {i : Instr}

/-! ## Loads and stores -/

/-- The effective address is the sum of base and signed displacement, wrapped (R190). -/
theorem toNat_effectiveAddress (s : State) (rs : RegIdx) (imm : BitVec 16) :
    ((effectiveAddress s rs imm).toNat : Int) = (((s.reg rs).toNat : Int) + signed16 imm) % 2 ^ 32 := by
  have hsum : effectiveAddress s rs imm = BitVec.ofInt 32 ((s.reg rs).toNat + (immSigned imm).toInt) := by
    rw [BitVec.ofInt_add, BitVec.ofInt_natCast, BitVec.ofNat_toNat, BitVec.setWidth_eq, BitVec.ofInt_toInt]
    rfl
  rw [hsum, toInt_immSigned, BitVec.toNat_ofInt, Int.toNat_of_nonneg (by omega)]
  rfl

theorem exec_of_storeAccess_fails {rt rs : RegIdx} {imm : BitVec 16} {n : Nat} {k : FaultKind}
    (hst : storeAccess i rt rs imm n) (hf : AccessFails k (effectiveAddress s rs imm) n) :
    exec i s = .next (raiseFault k (effectiveAddress s rs imm) s) := by
  obtain ⟨w, rfl, -, -, he⟩ := exec_of_storeAccess hst
  rw [he, storeFrom_of_fails hf]

/-- A load or store whose check fails takes its fault at the effective address (R190, R221). -/
theorem exec_access_takesFault {rt rs : RegIdx} {imm : BitVec 16} {n : Nat} {k : FaultKind}
    (ha : loadAccess i rs imm n ∨ storeAccess i rt rs imm n) (hf : AccessFails k (effectiveAddress s rs imm) n) :
    ∃ t, exec i s = .next t ∧ TakesFault k (effectiveAddress s rs imm) s t :=
  ⟨_, ha.elim (exec_of_loadAccess_fails · hf) (exec_of_storeAccess_fails · hf), takesFault_raiseFault k _ s⟩

/-- A load with destination `rt` is `loadInto` of `rt` with an extension that keeps zero (R191 to R195). -/
theorem exec_of_loadAccess_extends_zero {rt rs : RegIdx} {imm : BitVec 16} {n : Nat} (hl : loadAccess i rs imm n)
    (hd : destination i = some rt) : ∃ w ext, n = w.bytes ∧ ext 0 = 0 ∧ exec i = loadInto w ext rt imm rs := by
  obtain ⟨rt', rfl, rfl⟩ | ⟨rt', rfl, rfl⟩ | ⟨rt', rfl, rfl⟩ | ⟨rt', rfl, rfl⟩ | ⟨rt', rfl, rfl⟩ := hl <;>
    obtain rfl : rt' = rt := Option.some.inj hd
  · exact ⟨.byte, sext8OfLow, rfl, rfl, rfl⟩
  · exact ⟨.byte, id, rfl, rfl, rfl⟩
  · exact ⟨.half, sext16OfLow, rfl, rfl, rfl⟩
  · exact ⟨.half, id, rfl, rfl, rfl⟩
  · exact ⟨.word, id, rfl, rfl, rfl⟩

theorem exec_sw_of_accessible {rs : RegIdx} {imm : BitVec 16} (h : DataAccessible (effectiveAddress s rs imm) 4)
    (rt : RegIdx) : exec (.sw rt imm rs) s
      = .next (s.setMem (s.mem.write .word (effectiveAddress s rs imm).toNat (s.reg rt))).advance :=
  storeFrom_of_accessible (w := .word) h rt

theorem exec_lw_of_accessible {rs : RegIdx} {imm : BitVec 16} (h : DataAccessible (effectiveAddress s rs imm) 4)
    (rt : RegIdx) : exec (.lw rt imm rs) s
      = .next (s.setReg rt (s.mem.word (effectiveAddress s rs imm).toNat)).advance :=
  loadInto_of_accessible (w := .word) h id rt

/-! ## Fetch -/

theorem step_of_fetch_error (hr : s.runState = .running) {k : FaultKind} (hf : fetch s = .error k) :
    step s = .next (raiseFault k s.pc s) := by
  have hc : coreStep s = .next (raiseFault k s.pc s) := by simp [coreStep, hr, hf]
  rw [step_running hr hc, stepBoundary_ended (by simp)]

theorem fetch_of_misaligned (h : s.pc.toNat % 4 ≠ 0) : fetch s = .error .addressMisaligned := by
  have hc : checkAccess s.pc .word .fetch = some .addressMisaligned := checkAccess_eq_some.mpr (.inl ⟨rfl, h⟩)
  simp [fetch, hc]

theorem fetch_of_outOfRange (hal : s.pc.toNat % 4 = 0) (h : ¬ InFetchRange s.pc.toNat 4) :
    fetch s = .error .addressOutOfRange := by
  have hc : checkAccess s.pc .word .fetch = some .addressOutOfRange :=
    checkAccess_eq_some.mpr (.inr ⟨rfl, hal, by rwa [Width.bytes, regionAdmits_fetch]⟩)
  simp [fetch, hc]

/-- A step from a misaligned `pc` takes the fault there (R56, R63). -/
theorem step_of_misaligned_pc (hr : s.runState = .running) (h : s.pc.toNat % 4 ≠ 0) :
    ∃ t, step s = .next t ∧ TakesFault .addressMisaligned s.pc s t :=
  ⟨_, step_of_fetch_error hr (fetch_of_misaligned h), takesFault_raiseFault _ _ s⟩

/-! ## The memory after a step -/

/-- Memory `m'` is `m`, or `m` after one write at an accessible data address. -/
def DataWrite (m m' : Memory) : Prop :=
  m' = m ∨ ∃ (w : Width) (a v : Word), DataAccessible a w.bytes ∧ m' = m.write w a.toNat v

theorem Effect.Fits.dataWrite {e : Effect} (he : e.Fits i s) : DataWrite s.mem (e.apply s).mem := by
  cases e with
  | store w a v =>
    obtain ⟨_, _, _, _, _, ha, _⟩ := he
    exact .inr ⟨w, a, v, ha, rfl⟩
  | _ => exact .inl rfl

/-- The core step answers a next state, and writes memory only by a store that passed its check. -/
theorem coreStep_dataWrite (hr : s.runState = .running) : ∃ t, coreStep s = .next t ∧ DataWrite s.mem t.mem := by
  rcases coreStep_cases hr with ⟨_, _, heq⟩ | ⟨_, _, _, _, heq⟩ | ⟨_, i, _, _, heq⟩
  · exact ⟨_, heq, .inl rfl⟩
  · exact ⟨_, heq, .inl rfl⟩
  · obtain ⟨e, he⟩ := exec_effect i s
    exact ⟨_, heq.trans he.exec_eq, he.1.dataWrite⟩

theorem step_dataWrite (hs : step s = .next t) : DataWrite s.mem t.mem := by
  by_cases hr : s.runState = .running
  · obtain ⟨u, hc, hmem⟩ := coreStep_dataWrite hr
    obtain rfl : stepBoundary u = t := by simpa [step_running hr hc] using hs
    obtain ⟨_, _, _, _, hmem', _⟩ := stepBoundary_block u
    rwa [hmem']
  · obtain rfl : s = t := by simpa [step_stopped hr] using hs
    exact .inl rfl

/-! ## Text is out of reach of a write -/

theorem InFetchRange.not_inDataRange {x n : Nat} (hn : 0 < n) (h : InFetchRange x n) : ¬ InDataRange x n := by
  unfold InFetchRange InDataRange at *
  omega

theorem InDataRange.of_mem {a n x : Nat} (h : InDataRange a n) (hlo : a ≤ x) (hhi : x < a + n) : InDataRange x 1 := by
  unfold InDataRange at *
  omega

/-- A data write leaves the bytes of the text regions (R53). -/
theorem DataWrite.byte_of_inFetchRange {m m' : Memory} (h : DataWrite m m') (hw : m.wf) {x : Nat}
    (hx : InFetchRange x 1) : m'.byte x = m.byte x := by
  obtain rfl | ⟨w, a, v, ⟨-, hin⟩, rfl⟩ := h
  · rfl
  · exact (byte_write hw w _ v x).trans
      (if_neg fun ⟨hlo, hhi⟩ => hx.not_inDataRange Nat.one_pos (hin.of_mem hlo hhi))

/-- A data write leaves the presence of the words of the text regions (R53). -/
theorem DataWrite.isPresent_of_inFetchRange {m m' : Memory} (h : DataWrite m m') {x : Nat} (hx : InFetchRange x 4) :
    m'.isPresent x = m.isPresent x := by
  obtain rfl | ⟨w, a, v, ha, rfl⟩ := h
  · rfl
  · have hne : x ≠ a.toNat - a.toNat % 4 := fun heq =>
      hx.not_inDataRange (by omega) (heq ▸ word_inDataRange_of_accessible ha)
    simp [isPresent_write, hne]

end Sys2Proof.Machine
end

section
/-! PROOF. The statements about memory: round trips, narrow writes, absent words, misaligned and unmapped accesses, and the text
regions. -/

namespace Sys2Proof.Proofs

open Sys2Proof.Machine

/-- Settles O20: a step writes memory only by a store whose check passed, and the data regions are apart from the text regions. -/
theorem stepNeverChangesText : Obligations.StepNeverChangesText := by
  intro s t hw hs
  have hwrite := step_dataWrite hs
  exact ⟨fun _ hx => hwrite.byte_of_inFetchRange hw hx, fun _ hx => hwrite.isPresent_of_inFetchRange hx⟩

/-- Settles O15: bit by bit, each bit of the word read from the byte it lies in. -/
theorem narrowWriteReplacesItsBits : Obligations.NarrowWriteReplacesItsBits := by
  intro m w a v hw _ _ _
  refine ⟨fun _ hb => getLsbD_word_write hw w a v hb, ?_, word_of_absent hw (by omega)⟩
  simp [isPresent_write]

/-- Settles O16: each byte joined above the ones before it adds its multiple of a power of two. -/
theorem readsAreLittleEndian : Obligations.ReadsAreLittleEndian := toNat_read

/-- Settles O17: the read of an absent word is zero, which both extensions keep. -/
theorem absentWordReadsAsZero : Obligations.AbsentWordReadsAsZero := by
  intro s hw
  refine ⟨fun i rs rt imm n hl hd ha habs => ?_, fun hf habs => ?_⟩
  · obtain ⟨w, ext, rfl, hext, he⟩ := exec_of_loadAccess_extends_zero hl hd
    refine ⟨(s.setReg rt 0).advance, ?_, ?_, fun _ => rfl, fun _ => rfl⟩
    · rw [he, loadInto_of_accessible ha, read_of_absent hw ha.1 habs, hext]
    · by_cases hrt : rt = 0 <;> simp [reg_setReg, hrt]
  · rw [fetch_eq hf, word_of_absent hw hf.1 habs]

/-- Settles O18: the invariant leaves no word present at a misaligned or an unmapped address. -/
theorem readMemoryWordTellsAbsentFromZero : Obligations.ReadMemoryWordTellsAbsentFromZero := by
  intro s a hinv hr
  have hcall : hostCall (.readMemoryWord a) s = .next (readMemoryPort a s, s) := by simp [hostCall, hr]
  have habsent (h : a.toNat ∉ s.mem.present) : hostCall (.readMemoryWord a) s = .next (.absent, s) := by
    rw [hcall, readMemoryPort, readWordOrAbsent_of_absent h]
  obtain ⟨-, -, -, haligned⟩ := hinv.memoryForm
  refine ⟨fun h => ?_, fun h => habsent (of_decide_eq_false h), fun h => habsent fun hp => h (haligned _ hp).1,
    fun hfetch hdata => habsent fun hp => (hinv.memoryMapped _ hp).elim hfetch hdata⟩
  rw [hcall, readMemoryPort, readWordOrAbsent_of_present (of_decide_eq_true h)]

/-- Settles O36: alignment is tested before range, and either fault is taken at the effective address. -/
theorem dataAccessFaults : Obligations.DataAccessFaults := fun _ _ _ _ _ _ ha =>
  ⟨fun hal => exec_access_takesFault ha (.inl ⟨rfl, hal⟩),
    fun hal hin => exec_access_takesFault ha (.inr ⟨rfl, hal, hin⟩)⟩

/-- Settles O19: the effective address is the wrapped sum, and alignment is tested before all else. -/
theorem misalignedAccessNeverRepaired : Obligations.MisalignedAccessNeverRepaired := by
  refine fun s => ⟨fun i rs rt imm n ha hal => ?_, step_of_misaligned_pc⟩
  rw [← toNat_effectiveAddress] at hal
  obtain ⟨t, hs, ht⟩ := exec_access_takesFault (s := s) ha (.inl ⟨rfl, by exact_mod_cast hal⟩)
  exact ⟨t, _, hs, ht, toNat_effectiveAddress s rs imm⟩

/-- Settles O37: the store leaves the base register, so the load is at the same address and reads the word written. -/
theorem storeWordThenLoadWord : Obligations.StoreWordThenLoadWord := by
  intro s t rt rd rs imm hw ha hs
  have ht : t = (s.setMem (s.mem.write .word (effectiveAddress s rs imm).toNat (s.reg rt))).advance := by
    simpa [exec_sw_of_accessible ha, eq_comm] using hs
  have hea : effectiveAddress t rs imm = effectiveAddress s rs imm := by rw [ht]; rfl
  have hloaded : t.mem.word (effectiveAddress t rs imm).toNat = s.reg rt := by
    rw [hea, ht]
    exact word_write hw _ _
  refine ⟨_, exec_lw_of_accessible (by rwa [hea]) rd, ?_, by simp [ht, BitVec.add_assoc]⟩
  rw [hloaded]
  by_cases hrd : rd = 0 <;> simp [reg_setReg, hrd]

/-- Settles O14: the word read back is the word written, and it is present. -/
theorem wordRoundTrip : Obligations.WordRoundTrip := by
  intro m a v hw hstore _
  obtain ⟨hal, -⟩ := (checkAccess_store a .word).mp hstore
  have hword : (m.write .word a.toNat v).word a.toNat = v := word_write hw a.toNat v
  have hpresent : a.toNat ∈ (m.write .word a.toNat v).present := by
    rw [present_write, mem_insertAddress]
    simp only [Width.bytes] at hal
    omega
  exact ⟨hword, by rw [readWordOrAbsent_of_present hpresent, hword]⟩

/-- Settles O41: the fetch's check fails by alignment first, then by range, and passes for a fetchable `pc`. -/
theorem fetchChecksTheProgramCounter : Obligations.FetchChecksTheProgramCounter := by
  refine fun s hr => ⟨step_of_misaligned_pc hr, fun hal hin =>
    ⟨_, step_of_fetch_error hr (fetch_of_outOfRange hal hin), takesFault_raiseFault _ _ s⟩, fun hf => ?_⟩
  rw [fetch_eq hf, ← toNat_word, BitVec.ofNat_toNat, BitVec.setWidth_eq]

end Sys2Proof.Proofs
end

section
/-! PROOF. The decoder and the encoder: a word is determined by its fields (R91), so a packed word is the word with those fields,
and reading an instruction off a word and writing it down are inverse (R97 to R101, R105). -/

namespace Sys2Proof

variable {v w : Word} {r : RegIdx} {i : Instr}

/-! ## A word is its fields -/

theorem eq_of_fieldsI (hop : fieldOp v = fieldOp w) (hrs : bitsRs v = bitsRs w) (hrt : bitsRt v = bitsRt w)
    (himm : fieldImm v = fieldImm w) : v = w := by
  simp only [fieldOp, bitsRs, bitsRt, fieldImm, ← BitVec.toNat_inj, BitVec.extractLsb'_toNat, Nat.shiftRight_eq_div_pow] at *
  omega

theorem fieldImm_eq_of_fieldsR (hrd : bitsRd v = bitsRd w) (hsa : fieldSa v = fieldSa w) (hfunct : fieldFunct v = fieldFunct w) :
    fieldImm v = fieldImm w := by
  simp only [fieldFunct, bitsRd, fieldSa, fieldImm, ← BitVec.toNat_inj, BitVec.extractLsb'_toNat,
    Nat.shiftRight_eq_div_pow] at *
  omega

theorem eq_of_fieldsJ (hop : fieldOp v = fieldOp w) (htarget : fieldTarget v = fieldTarget w) : v = w := by
  simp only [fieldOp, fieldTarget, ← BitVec.toNat_inj, BitVec.extractLsb'_toNat, Nat.shiftRight_eq_div_pow] at *
  omega

theorem eq_of_fieldsBreak (hop : fieldOp v = fieldOp w) (hfunct : fieldFunct v = fieldFunct w)
    (hcode : fieldCode v = fieldCode w) : v = w := by
  simp only [fieldOp, fieldFunct, fieldCode, ← BitVec.toNat_inj, BitVec.extractLsb'_toNat, Nat.shiftRight_eq_div_pow] at *
  omega

/-! ## A packed word is the word with its fields (R92 to R94) -/

@[simp] theorem packR_eq_iff {rs rt rd sa : BitVec 5} {funct : BitVec 6} : packR rs rt rd sa funct = w ↔
    fieldOp w = 0 ∧ bitsRs w = rs ∧ bitsRt w = rt ∧ bitsRd w = rd ∧ fieldSa w = sa ∧ fieldFunct w = funct := by
  constructor
  · rintro rfl
    exact ⟨fieldOp_packR .., bitsRs_packR .., bitsRt_packR .., bitsRd_packR .., fieldSa_packR .., fieldFunct_packR ..⟩
  · rintro ⟨hop, rfl, rfl, rfl, rfl, rfl⟩
    exact eq_of_fieldsI ((fieldOp_packR ..).trans hop.symm) (bitsRs_packR ..) (bitsRt_packR ..)
      (fieldImm_eq_of_fieldsR (bitsRd_packR ..) (fieldSa_packR ..) (fieldFunct_packR ..))

@[simp] theorem packI_eq_iff {op : BitVec 6} {rs rt : BitVec 5} {imm : BitVec 16} :
    packI op rs rt imm = w ↔ fieldOp w = op ∧ bitsRs w = rs ∧ bitsRt w = rt ∧ fieldImm w = imm := by
  constructor
  · rintro rfl
    exact ⟨fieldOp_packI .., bitsRs_packI .., bitsRt_packI .., fieldImm_packI ..⟩
  · rintro ⟨rfl, rfl, rfl, rfl⟩
    exact eq_of_fieldsI (fieldOp_packI ..) (bitsRs_packI ..) (bitsRt_packI ..) (fieldImm_packI ..)

@[simp] theorem packJ_eq_iff {op : BitVec 6} {target : BitVec 26} :
    packJ op target = w ↔ fieldOp w = op ∧ fieldTarget w = target := by
  constructor
  · rintro rfl
    exact ⟨fieldOp_packJ .., fieldTarget_packJ ..⟩
  · rintro ⟨rfl, rfl⟩
    exact eq_of_fieldsJ (fieldOp_packJ ..) (fieldTarget_packJ ..)

@[simp] theorem packBreak_eq_iff {code : BitVec 20} :
    packBreak code = w ↔ fieldOp w = 0 ∧ fieldFunct w = 0x0d ∧ fieldCode w = code := by
  constructor
  · rintro rfl
    exact ⟨fieldOp_packBreak .., fieldFunct_packBreak .., fieldCode_packBreak ..⟩
  · rintro ⟨hop, hfunct, rfl⟩
    exact eq_of_fieldsBreak ((fieldOp_packBreak ..).trans hop.symm) ((fieldFunct_packBreak ..).trans hfunct.symm)
      (fieldCode_packBreak ..)

/-! ## One spelling for each fact about a field: an unused field as bits, an operand as a register (R96) -/

@[simp] theorem bitsRs_eq_regBits : bitsRs w = regBits r ↔ fieldRs w = r := BitVec.toFin_inj.symm

@[simp] theorem bitsRt_eq_regBits : bitsRt w = regBits r ↔ fieldRt w = r := BitVec.toFin_inj.symm

@[simp] theorem bitsRd_eq_regBits : bitsRd w = regBits r ↔ fieldRd w = r := BitVec.toFin_inj.symm

@[simp] theorem fieldRs_eq_zero : fieldRs w = 0 ↔ bitsRs w = 0#5 := BitVec.toFin_inj

@[simp] theorem fieldRt_eq_zero : fieldRt w = 0 ↔ bitsRt w = 0#5 := BitVec.toFin_inj

@[simp] theorem fieldRd_eq_zero : fieldRd w = 0 ↔ bitsRd w = 0#5 := BitVec.toFin_inj

@[simp] theorem zero_eq_regBits : 0#5 = regBits r ↔ r = 0 := BitVec.toFin_inj.symm.trans eq_comm

@[simp] theorem fieldCode_eq_zero :
    fieldCode w = 0#20 ↔ bitsRs w = 0#5 ∧ bitsRt w = 0#5 ∧ bitsRd w = 0#5 ∧ fieldSa w = 0#5 := by
  simp only [fieldCode, bitsRs, bitsRt, bitsRd, fieldSa, ← BitVec.toNat_inj, BitVec.extractLsb'_toNat,
    Nat.shiftRight_eq_div_pow, BitVec.toNat_ofNat]
  omega

/-! ## The fields of a number -/

theorem extractLsb'_ofNat (n : Nat) {start len : Nat} (h : start + len ≤ 32) :
    (BitVec.ofNat 32 n).extractLsb' start len = BitVec.ofNat len (n / 2 ^ start) := by
  refine BitVec.eq_of_getLsbD_eq fun k hk => ?_
  have hbit : start + k < 32 := by omega
  rw [BitVec.getLsbD_extractLsb', BitVec.getLsbD_ofNat, BitVec.getLsbD_ofNat, Nat.testBit_div_two_pow]
  simp [hk, hbit, Nat.add_comm]

@[simp] theorem fieldOp_ofNat (n : Nat) : fieldOp (BitVec.ofNat 32 n) = BitVec.ofNat 6 (n / 2 ^ 26) :=
  extractLsb'_ofNat n (by decide)

@[simp] theorem bitsRs_ofNat (n : Nat) : bitsRs (BitVec.ofNat 32 n) = BitVec.ofNat 5 (n / 2 ^ 21) :=
  extractLsb'_ofNat n (by decide)

@[simp] theorem bitsRt_ofNat (n : Nat) : bitsRt (BitVec.ofNat 32 n) = BitVec.ofNat 5 (n / 2 ^ 16) :=
  extractLsb'_ofNat n (by decide)

@[simp] theorem bitsRd_ofNat (n : Nat) : bitsRd (BitVec.ofNat 32 n) = BitVec.ofNat 5 (n / 2 ^ 11) :=
  extractLsb'_ofNat n (by decide)

@[simp] theorem fieldSa_ofNat (n : Nat) : fieldSa (BitVec.ofNat 32 n) = BitVec.ofNat 5 (n / 2 ^ 6) :=
  extractLsb'_ofNat n (by decide)

@[simp] theorem fieldFunct_ofNat (n : Nat) : fieldFunct (BitVec.ofNat 32 n) = BitVec.ofNat 6 (n / 2 ^ 0) :=
  extractLsb'_ofNat n (by decide)

/-! ## The encoding of what a word decodes to -/

theorem strict_eq_ok {c : Bool} {j : Instr} : strict c i = .ok j ↔ c = true ∧ i = j := by
  cases c <;> simp [strict]

/-- Each row of major opcode 0 fixes or copies every field (R92, R98). -/
theorem encode_of_decodeSpecial (hop : fieldOp w = 0) (h : decodeSpecial w = .ok i) : encode i = w := by
  unfold decodeSpecial at h
  split at h
  case h_10 hfunct => -- `break`
    obtain rfl := Except.ok.inj h
    exact packBreak_eq_iff.mpr ⟨hop, hfunct, rfl⟩
  case h_29 => cases h -- no row
  all_goals
    obtain ⟨hunused, rfl⟩ := strict_eq_ok.mp h
    simp_all [encode]

theorem encode_of_decodeRegimm (hop : fieldOp w = 1) (h : decodeRegimm w = .ok i) : encode i = w := by
  unfold decodeRegimm at h
  split at h
  case h_3 => cases h -- no row
  all_goals
    obtain rfl := Except.ok.inj h
    simp [encode, *]

/-- No bit of a word that decodes is dropped (R98). -/
theorem encode_of_decodeWord (h : decodeWord w = .ok i) : encode i = w := by
  by_cases h0 : w = 0
  · rw [decodeWord, if_pos h0] at h
    obtain rfl := Except.ok.inj h
    exact h0.symm
  rw [decodeWord, if_neg h0] at h
  split at h
  case h_1 hop => exact encode_of_decodeSpecial hop h
  case h_2 hop => exact encode_of_decodeRegimm hop h
  case h_7 | h_8 | h_16 => -- `blez`, `bgtz`, `lui`
    obtain ⟨hunused, rfl⟩ := strict_eq_ok.mp h
    simp_all [encode]
  case h_25 => cases h -- no row
  all_goals
    obtain rfl := Except.ok.inj h
    simp [encode, *]

/-! ## The instruction that an encoding decodes to -/

/-- The one term that is no instruction (R105). -/
theorem instr_wellFormed_iff : i.wellFormed = true ↔ i ≠ .sll 0 0 0 := by
  cases i
  case sll => simp [Instr.wellFormed]; tauto
  all_goals simp [Instr.wellFormed]

/-- Only the sentinel and that term have the all-zero word (R105). -/
theorem encode_eq_zero : encode i = 0 ↔ i = .halt ∨ i = .sll 0 0 0 := by
  cases i
  case sll => simp [encode]; tauto
  all_goals simp [encode]

theorem encode_ne_zero (hwf : i.wellFormed = true) (hhalt : i ≠ .halt) : encode i ≠ 0 := by
  rw [ne_eq, encode_eq_zero]
  exact not_or_intro hhalt (instr_wellFormed_iff.mp hwf)

/-- The fields of an encoding lead the decoder to the instruction's own branch. -/
theorem decodeWord_encode (hwf : i.wellFormed = true) : decodeWord (encode i) = .ok i := by
  by_cases hhalt : i = .halt
  · rw [hhalt]
    rfl
  have h0 := encode_ne_zero hwf hhalt
  generalize hw : encode i = w at *
  rw [decodeWord, if_neg h0]
  cases i
  case halt => contradiction
  all_goals
    simp [encode] at hw
    simp [decodeSpecial, decodeRegimm, strict, hw]

theorem decodeWord_eq_halt : decodeWord w = .ok .halt ↔ w = 0 := by
  constructor
  · exact fun h => (encode_of_decodeWord h).symm
  · rintro rfl
    rfl

theorem wellFormed_of_decodeWord (h : decodeWord w = .ok i) : i.wellFormed = true := by
  rw [instr_wellFormed_iff]
  rintro rfl
  obtain rfl : w = 0 := (encode_of_decodeWord h).symm.trans (encode_eq_zero.mpr (.inr rfl))
  cases (decodeWord_eq_halt.mpr rfl).symm.trans h

end Sys2Proof
end

section
/-! PROOF. The match and mask columns of the opcode table (R97, R104): any two rows differ in a bit that both look at, and field
by field the columns are the tests of the decoder. -/

namespace Sys2Proof

variable {w : Word} {r q : Row}

/-! ## Two rows of the table -/

/-- Two rows ask for different values of a bit that both look at. -/
abbrev Row.Conflicts (r q : Row) : Prop := r.mtch &&& q.mask ≠ q.mtch &&& r.mask

theorem Row.Conflicts.not_both_fit (h : r.Conflicts q) (hr : w &&& r.mask = r.mtch) : w &&& q.mask ≠ q.mtch := by
  intro hq
  exact h (by rw [← hr, ← hq, BitVec.and_assoc, BitVec.and_assoc, BitVec.and_comm r.mask])

theorem opcodeRows_pairwise_conflicts : opcodeRows.Pairwise Row.Conflicts := by decide

/-- Both rows fit the word only if they are one row. -/
def Row.OneFits (w : Word) (r q : Row) : Prop := w &&& r.mask = r.mtch → w &&& q.mask = q.mtch → r = q

theorem table_pairwise_oneFits (h0 : w ≠ 0) : (haltRow :: opcodeRows).Pairwise (Row.OneFits w) := by
  refine List.pairwise_cons.mpr ⟨fun _ _ hfit => ?_, opcodeRows_pairwise_conflicts.imp fun h hr hq => ?_⟩
  · exact absurd (BitVec.and_allOnes.symm.trans hfit) h0
  · exact absurd hq (h.not_both_fit hr)

theorem oneFits_of_mem_table (h0 : w ≠ 0) (hr : r ∈ haltRow :: opcodeRows) (hq : q ∈ haltRow :: opcodeRows) :
    Row.OneFits w r q :=
  have hpair := table_pairwise_oneFits h0
  hpair.forall_of_forall_of_flip (fun _ _ _ _ => rfl) (hpair.imp fun h hq hr => (h hr hq).symm) hr hq

/-! ## A pattern is a condition on each field -/

theorem and_eq_iff_fields {m v : Word} : w &&& m = v ↔
    fieldOp w &&& fieldOp m = fieldOp v ∧ bitsRs w &&& bitsRs m = bitsRs v ∧ bitsRt w &&& bitsRt m = bitsRt v ∧
    bitsRd w &&& bitsRd m = bitsRd v ∧ fieldSa w &&& fieldSa m = fieldSa v ∧
    fieldFunct w &&& fieldFunct m = fieldFunct v := by
  simp only [fieldOp, bitsRs, bitsRt, bitsRd, fieldSa, fieldFunct, ← BitVec.extractLsb'_and]
  refine ⟨by rintro rfl; simp only [and_self], fun ⟨hop, hrs, hrt, hrd, hsa, hfunct⟩ => ?_⟩
  exact eq_of_fieldsI hop hrs hrt (fieldImm_eq_of_fieldsR hrd hsa hfunct)

@[simp] theorem and_mask_five (x : BitVec 5) : x &&& 31#5 = x := BitVec.and_allOnes

@[simp] theorem and_mask_six (x : BitVec 6) : x &&& 63#6 = x := BitVec.and_allOnes

/-! ## A word that fits a row -/

/-- The instruction has the row's mnemonic and category (R102, R103). -/
def Instr.OfRow (i : Instr) (r : Row) : Prop := i.mnemonic = r.mnemonic ∧ i.category = r.category

theorem decodeWord_of_op_zero (h0 : w ≠ 0) (hop : fieldOp w = 0) : decodeWord w = decodeSpecial w := by
  rw [decodeWord, if_neg h0]
  simp [hop]

theorem decodeWord_of_op_one (hop : fieldOp w = 1) : decodeWord w = decodeRegimm w := by
  have h0 : w ≠ 0 := by
    rintro rfl
    simp at hop
  rw [decodeWord, if_neg h0]
  simp [hop]

theorem decodeSpecial_of_fits (hr : r ∈ rowsR) (hfit : w &&& r.mask = r.mtch) :
    fieldOp w = 0 ∧ ∃ i, decodeSpecial w = .ok i ∧ i.OfRow r := by
  rw [and_eq_iff_fields] at hfit
  fin_cases hr
  all_goals
    simp at hfit
    simp [decodeSpecial, strict, hfit]
    exact ⟨rfl, rfl⟩

theorem decodeWord_of_fits (h0 : w ≠ 0) (hr : r ∈ opcodeRows) (hfit : w &&& r.mask = r.mtch) :
    ∃ i, decodeWord w = .ok i ∧ i.OfRow r := by
  rw [opcodeRows, List.append_assoc, List.mem_append] at hr
  obtain hr | hr := hr
  · obtain ⟨hop, hdecodes⟩ := decodeSpecial_of_fits hr hfit
    rwa [decodeWord_of_op_zero h0 hop]
  · rw [and_eq_iff_fields] at hfit
    rw [decodeWord, if_neg h0]
    fin_cases hr
    all_goals
      simp at hfit
      simp [decodeRegimm, strict, hfit]
      exact ⟨rfl, rfl⟩

/-! ## A word that fits no row -/

theorem strict_eq_error {c : Bool} {i : Instr} : strict c i = .error .invalidInstruction ↔ c = false := by
  cases c <;> simp [strict]

theorem decodeSpecial_of_no_fit (hop : fieldOp w = 0) (h : ∀ r ∈ rowsR, w &&& r.mask ≠ r.mtch) :
    decodeSpecial w = .error .invalidInstruction := by
  simp [rowsR, and_eq_iff_fields, hop] at h
  unfold decodeSpecial
  split
  case h_10 hfunct => simp [hfunct] at h -- `break`
  case h_29 => rfl -- no row
  all_goals
    rename_i hfunct
    simpa [strict_eq_error, hfunct] using h

theorem decodeRegimm_of_no_fit (hop : fieldOp w = 1) (h : ∀ r ∈ rowsI, w &&& r.mask ≠ r.mtch) :
    decodeRegimm w = .error .invalidInstruction := by
  simp [rowsI, and_eq_iff_fields, hop] at h
  obtain ⟨hbltz, hbgez⟩ := h
  unfold decodeRegimm
  split
  · contradiction
  · contradiction
  · rfl

theorem decodeWord_of_no_fit (h0 : w ≠ 0) (h : ∀ r ∈ opcodeRows, w &&& r.mask ≠ r.mtch) :
    decodeWord w = .error .invalidInstruction := by
  rw [opcodeRows, List.forall_mem_append, List.forall_mem_append] at h
  obtain ⟨⟨hR, hI⟩, hJ⟩ := h
  have hregimm (hop : fieldOp w = 1) := decodeRegimm_of_no_fit hop hI
  simp [rowsI, and_eq_iff_fields] at hI
  simp [rowsJ, and_eq_iff_fields] at hJ
  rw [decodeWord, if_neg h0]
  split
  case h_1 hop => exact decodeSpecial_of_no_fit hop hR
  case h_2 hop => exact hregimm hop
  case h_3 hop | h_4 hop => simp [hop] at hJ -- `j`, `jal`
  case h_7 hop | h_8 hop | h_16 hop => simpa [strict_eq_error, hop] using hI -- `blez`, `bgtz`, `lui`
  case h_25 => rfl -- no row
  all_goals
    rename_i hop
    simp [hop] at hI

/-! ## The listed words (R106) -/

/-- A word is refused exactly if it is not zero and fits no row (R97, R106). -/
theorem decodeWord_eq_error : decodeWord w = .error .invalidInstruction ↔
    w ≠ 0 ∧ ∀ r ∈ opcodeRows, w &&& r.mask ≠ r.mtch := by
  refine ⟨fun h => ?_, fun ⟨h0, hno⟩ => decodeWord_of_no_fit h0 hno⟩
  have h0 : w ≠ 0 := by
    rintro rfl
    cases h
  refine ⟨h0, fun r hr hfit => ?_⟩
  obtain ⟨i, hi, -⟩ := decodeWord_of_fits h0 hr hfit
  cases hi.symm.trans h

theorem decodeWord_of_listed_op (h : (fieldOp w).toNat ∈
    [0x10, 0x11, 0x12, 0x13, 0x1c, 0x22, 0x26, 0x2a, 0x2e, 0x30, 0x38, 0x31, 0x35, 0x39, 0x3d]) :
    decodeWord w = .error .invalidInstruction := by
  have h0 : w ≠ 0 := by
    rintro rfl
    simp at h
  rw [decodeWord, if_neg h0]
  split
  case h_25 => rfl -- no row
  all_goals
    rename_i hop
    simp [hop] at h

theorem decodeWord_of_listed_funct (hop : (fieldOp w).toNat = 0)
    (h : (fieldFunct w).toNat ∈ [0x0a, 0x0b, 0x0f] ∨ 0x30 ≤ (fieldFunct w).toNat ∧ (fieldFunct w).toNat ≤ 0x36) :
    decodeWord w = .error .invalidInstruction := by
  have h0 : w ≠ 0 := by
    rintro rfl
    simp at h
  rw [decodeWord_of_op_zero h0 (BitVec.eq_of_toNat_eq hop), decodeSpecial]
  split
  case h_29 => rfl -- no row
  all_goals
    rename_i hfunct
    simp [hfunct] at h

theorem decodeWord_of_listed_sub_opcode (hop : (fieldOp w).toNat = 1)
    (h : (bitsRt w).toNat ∈ [0x10, 0x11] ∨ 0x08 ≤ (bitsRt w).toNat ∧ (bitsRt w).toNat ≤ 0x0e) :
    decodeWord w = .error .invalidInstruction := by
  rw [decodeWord_of_op_one (BitVec.eq_of_toNat_eq hop), decodeRegimm]
  split
  case h_3 => rfl -- no row
  all_goals
    rename_i hrt
    simp [hrt] at h

end Sys2Proof
end

section
/-! PROOF. Steps that end the run at once (R106, R213), and the effect of a call (R120). -/

namespace Sys2Proof.Machine

variable {s t : State}

/-! ## Steps that end the run -/

theorem step_of_ended (hr : s.runState = .running) (hc : coreStep s = .next t) (ht : t.runState ≠ .running) :
    step s = .next t := by
  rw [step_running hr hc, stepBoundary_ended ht]

theorem step_of_decode_error (hr : s.runState = .running) (hf : Fetchable s) {e : DecodeError}
    (hd : decodeWord (s.mem.word s.pc.toNat) = .error e) : step s = .next (raiseFault .invalidInstruction s.pc s) :=
  step_of_ended hr (by simp [coreStep, hr, fetch_eq hf, hd]) (by simp)

theorem exec_halt (s : State) : exec .halt s = .next (terminate .cliffTermination s) := rfl

theorem step_of_zero_word (hr : s.runState = .running) (hf : Fetchable s) (hz : s.mem.word s.pc.toNat = 0) :
    step s = .next (terminate .cliffTermination s) :=
  have hd := decodeWord_eq_halt.mpr hz
  step_of_ended hr (by simp [coreStep, hr, fetch_eq hf, hd, exec_halt]) (by simp)

theorem takesTermination_terminate (r : Reason) (s : State) : TakesTermination r s (terminate r s) :=
  ⟨rfl, rfl, rfl, ⟨rfl, rfl, rfl, rfl, rfl⟩, ⟨fun _ => rfl, ⟨rfl, rfl⟩, ⟨fun _ => rfl, fun _ => rfl⟩, rfl⟩, rfl⟩

/-! ## Calls -/

theorem and_top_nibble (x : Word) : (x &&& 0xf0000000#32).toNat = x.toNat / 2 ^ 28 * 2 ^ 28 := by
  have hmask : x &&& 0xf0000000#32 = (x >>> 28) <<< 28 := by
    ext k hk
    interval_cases k <;> simp
  rw [hmask, BitVec.toNat_shiftLeft, BitVec.toNat_ushiftRight, Nat.shiftLeft_eq, Nat.shiftRight_eq_div_pow]
  omega

/-- The block of `pc + 4` joined to the target field is the spec's sum (R95, R121). -/
theorem jumpTarget_eq_jumpAddress (s : State) (target : BitVec 26) : jumpTarget s target = jumpAddress s target := by
  apply BitVec.eq_of_toNat_eq
  have hnext : s.nextPc.toNat = (s.pc.toNat + 4) % 2 ^ 32 := by simp [State.nextPc, Config.instructionBytes]
  have htarget : (target.setWidth 32 <<< 2).toNat = target.toNat * 4 := by
    rw [BitVec.toNat_shiftLeft, BitVec.toNat_setWidth_of_le (by omega), Nat.shiftLeft_eq]
    omega
  rw [jumpTarget, jumpAddress, BitVec.toNat_or, and_top_nibble, htarget, hnext, BitVec.toNat_ofNat, Nat.mul_comm _ (2 ^ 28),
    ← Nat.two_pow_add_eq_or_of_lt (by omega)]
  omega

/-- A call writes its link register and `pc`, and nothing else (R120). -/
theorem callTo_results (link : RegIdx) (a : Word) (s : State) : ∃ t, callTo link a s = .next t ∧ t.pc = a ∧
    t.reg link = (if link = 0 then 0 else s.pc + 4) ∧ KeepsRegsBut link s t ∧ KeepsHiLo s t ∧ KeepsMemory s t ∧
    KeepsControl s t := by
  refine ⟨_, callTo_eq link a s, rfl, ?_, fun r hr => reg_setReg_other s _ hr, ⟨rfl, rfl⟩, ⟨fun _ => rfl, fun _ => rfl⟩,
    rfl, rfl, rfl, rfl, rfl, rfl, rfl, rfl, rfl, rfl, rfl⟩
  by_cases hlink : link = 0
  · simp [hlink]
  · rw [if_neg hlink, reg_redirect, reg_setReg_same s _ hlink]
    rfl

end Sys2Proof.Machine
end

section
/-! PROOF. The statements about encoding, and those on calls, on the sentinel and on effective addresses. -/

namespace Sys2Proof.Proofs

open Sys2Proof.Machine

/-- Settles O2: the fields of an encoding are the operands, and only the sentinel and the missing `sll` encode as zero. -/
theorem decodeOfEncodeIsTheInstruction : Obligations.DecodeOfEncodeIsTheInstruction := fun _ hwf => decodeWord_encode hwf

/-- Settles O3: each branch of the decoder fixes or copies every field of the word. -/
theorem encodeOfDecodeIsTheWord : Obligations.EncodeOfDecodeIsTheWord := fun _ _ h =>
  ⟨encode_of_decodeWord h, wellFormed_of_decodeWord h⟩

/-- Settles O4: a pattern of the table is a condition on each field, and these are the tests of the decoder. -/
theorem decoderFollowsMatchAndMask : Obligations.DecoderFollowsMatchAndMask := fun _ h0 =>
  ⟨fun _ hr hfit => decodeWord_of_fits h0 hr hfit, fun h => decodeWord_of_no_fit h0 h⟩

/-- Settles O5: any two rows of the table ask for different values of some bit, and the sentinel's row fits zero alone. -/
theorem noTwoRowsMatchOneWord : Obligations.NoTwoRowsMatchOneWord := fun _ h0 _ hr _ hq =>
  oneFits_of_mem_table h0 hr hq

/-- Settles O6: a word that fits no row is refused by the decoder; the listed words are refused, so they fit no row. -/
theorem unmatchedWordRaisesInvalidInstruction : Obligations.UnmatchedWordRaisesInvalidInstruction := by
  refine ⟨fun s hr hf h0 hno => ?_, fun w hlisted => decodeWord_eq_error.mp ?_⟩
  · exact ⟨_, step_of_decode_error hr hf (decodeWord_of_no_fit h0 hno), takesFault_raiseFault _ _ s⟩
  · obtain hop | ⟨hop, hfunct⟩ | ⟨hop, hrt⟩ := hlisted
    · exact decodeWord_of_listed_op hop
    · exact decodeWord_of_listed_funct hop hfunct
    · exact decodeWord_of_listed_sub_opcode hop hrt

/-- Settles O33: both calls end in the same write of the link register, with the target read before it. -/
theorem callResults : Obligations.CallResults := by
  intro s rd rs target
  obtain ⟨t, ht, hpc, hlink, hkeeps⟩ := callTo_results 31 (jumpTarget s target) s
  exact ⟨⟨t, ht, hpc.trans (jumpTarget_eq_jumpAddress s target), hlink, hkeeps⟩, callTo_results rd (s.reg rs) s⟩

/-- Settles O40: encode of decode pins the word, and the word read at an absent address is zero. -/
theorem sentinelEndsTheRun : Obligations.SentinelEndsTheRun := by
  refine ⟨fun w => decodeWord_eq_halt, fun s => ⟨_, exec_halt s, takesTermination_terminate _ s⟩, fun s hw hr hf habs => ?_⟩
  exact ⟨_, step_of_zero_word hr hf (word_of_absent hw hf.1 habs), takesTermination_terminate _ s⟩

/-- Settles O1: the decoder evaluates to the stated answer on each of the words. -/
theorem specWordsDecode : Obligations.SpecWordsDecode := by
  unfold Obligations.SpecWordsDecode
  decide

/-- Settles O13: the model's sign extension has the spec's signed reading, and the sum wraps. -/
theorem effectiveAddressWraps : Obligations.EffectiveAddressWraps := toNat_effectiveAddress

end Sys2Proof.Proofs
end

section
/-! PROOF. Branches and jumps (R130 to R138): the branch target as a number, and that an instruction which only sets `pc` leaves
everything else. -/

namespace Sys2Proof.Machine

/-- Displacing `pc + 4` by the shifted immediate is the spec's sum of numbers (R95, R130). -/
theorem branchTarget_eq_branchAddress (s : State) (imm : BitVec 16) : branchTarget s imm = branchAddress s imm := by
  have hpc : BitVec.ofInt 32 s.pc.toNat = s.pc := by simp
  have himm : BitVec.ofInt 32 (signed16 imm) = sext16 imm := by
    rw [← toInt_immSigned, BitVec.ofInt_toInt]
    rfl
  have hshift : sext16 imm <<< 2 = 4#32 * sext16 imm := by
    rw [BitVec.shiftLeft_eq_mul_twoPow, BitVec.mul_comm]
    rfl
  rw [branchTarget, branchAddress, BitVec.ofInt_add, BitVec.ofInt_add, BitVec.ofInt_mul, hpc, himm, hshift]
  rfl

theorem goesTo_redirect (a : Word) (s : State) : GoesTo a s (s.redirect a) :=
  ⟨rfl, fun _ => rfl, ⟨rfl, rfl⟩, ⟨fun _ => rfl, fun _ => rfl⟩, rfl, rfl, rfl, rfl, rfl, rfl, rfl, rfl, rfl, rfl, rfl⟩

theorem goesTo_advance (s : State) : GoesTo (s.pc + 4) s s.advance := goesTo_redirect (s.pc + 4) s

/-- A branch whose test decides `taken` goes to its target if `taken` holds and to `pc + 4` otherwise (R130). -/
theorem branchIf_goesTo {c : Bool} {taken : Prop} [Decidable taken] (h : c = true ↔ taken) (imm : BitVec 16) (s : State) :
    ∃ t, branchIf c imm s = .next t ∧ GoesTo (if taken then branchAddress s imm else s.pc + 4) s t := by
  obtain ⟨hc, he⟩ | ⟨hc, he⟩ := branchIf_cases c imm s
  · rw [if_pos (h.mp hc), ← branchTarget_eq_branchAddress]
    exact ⟨_, he, goesTo_redirect _ s⟩
  · rw [if_neg fun ht => Bool.false_ne_true (hc.symm.trans (h.mpr ht))]
    exact ⟨_, he, goesTo_advance s⟩

end Sys2Proof.Machine
end

section
/-! PROOF. The statements about branches and jumps. -/

namespace Sys2Proof.Proofs

open Sys2Proof.Machine

/-- Settles O31: each branch is the shared one with its own test, and the test agrees with the spec's reading of the registers. -/
theorem conditionalBranchResults : Obligations.ConditionalBranchResults := by
  intro s rs rt imm i taken _ h
  simp only [← toInt_eq_signed32] at h
  obtain ⟨rfl, h⟩ | ⟨rfl, h⟩ | ⟨rfl, h⟩ | ⟨rfl, h⟩ | ⟨rfl, h⟩ | ⟨rfl, h⟩ := h
  · exact branchIf_goesTo (beq_iff_eq.trans h.symm) imm s
  · exact branchIf_goesTo (bne_iff_ne.trans h.symm) imm s
  all_goals exact branchIf_goesTo (decide_eq_true_iff.trans h.symm) imm s

/-- Settles O32: both jumps only set `pc`, and the target of `j` is the spec's sum. -/
theorem jumpResults : Obligations.JumpResults := by
  intro s rs target
  rw [← jumpTarget_eq_jumpAddress]
  exact ⟨⟨_, rfl, goesTo_redirect _ s⟩, ⟨_, rfl, goesTo_redirect _ s⟩⟩

end Sys2Proof.Proofs
end

section
/-! PROOF. What the arithmetic family writes (R140 to R177): the ends of its instructions as the statements' shapes, and the
model's operations on words as the spec's operations on numbers. -/

namespace Sys2Proof.Machine

/-! ## Ends of an arithmetic instruction -/

theorem writeResult_writes (rd : RegIdx) (v : Word) (s : State) :
    ∃ t, writeResult rd v s = .next t ∧ Writes rd v s t := by
  refine ⟨_, writeResult_eq rd v s, ?_, fun r hr => reg_setReg_other s v hr, rfl, ⟨rfl, rfl⟩, ⟨fun _ => rfl, fun _ => rfl⟩,
    rfl, rfl, rfl, rfl, rfl, rfl, rfl, rfl, rfl, rfl, rfl⟩
  by_cases hrd : rd = 0
  · simp [hrd]
  · rw [if_neg hrd, reg_advance, reg_setReg_same s v hrd]

theorem writeResult_writes_of_eq {v w : Word} (h : v = w) (rd : RegIdx) (s : State) :
    ∃ t, writeResult rd v s = .next t ∧ Writes rd w s t :=
  h ▸ writeResult_writes rd v s

theorem writeHiLo_writesHiLo (h l : Word) (s : State) : ∃ t, writeHiLo h l s = .next t ∧ WritesHiLo h l s t :=
  ⟨_, writeHiLo_eq h l s, rfl, rfl, fun _ => rfl, rfl, ⟨fun _ => rfl, fun _ => rfl⟩,
    rfl, rfl, rfl, rfl, rfl, rfl, rfl, rfl, rfl, rfl, rfl⟩

/-- Of a running machine, an exact result that does not fit ends the run, and one that fits does not (R140, R141). -/
theorem writeOrOverflow_faults_iff {s : State} (hr : s.runState = .running) (rd : RegIdx) (e : Int) :
    (∃ t, writeOrOverflow rd e s = .next t ∧ t.lastReason = some .fault ∧ t.runState = .terminated) ↔ OutsideSigned e := by
  by_cases h : OutsideSigned e
  · simp [writeOrOverflow_of_outside h, h]
  · simp [writeOrOverflow_of_fits h, h, hr]

/-! ## Signed overflow by the sign bits -/

theorem outsideSigned_add_iff (a b : Word) :
    OutsideSigned (signed32 a + signed32 b) ↔ a.msb = b.msb ∧ (a + b).msb ≠ a.msb := by
  have hdef : a.saddOverflow b = true ↔ OutsideSigned (a.toInt + b.toInt) := by
    simp only [BitVec.saddOverflow, OutsideSigned, Bool.or_eq_true, decide_eq_true_eq]
    omega
  rw [← toInt_eq_signed32, ← toInt_eq_signed32, ← hdef, BitVec.saddOverflow_eq]
  simp

theorem outsideSigned_sub_iff (a b : Word) :
    OutsideSigned (signed32 a - signed32 b) ↔ a.msb ≠ b.msb ∧ (a - b).msb ≠ a.msb := by
  have hdef : a.ssubOverflow b = true ↔ OutsideSigned (a.toInt - b.toInt) := by
    simp only [BitVec.ssubOverflow, OutsideSigned, Bool.or_eq_true, decide_eq_true_eq]
    omega
  rw [← toInt_eq_signed32, ← toInt_eq_signed32, ← hdef, BitVec.ssubOverflow_eq]
  cases a.msb <;> cases b.msb <;> simp

/-! ## Immediates -/

theorem signed32_immSigned (imm : BitVec 16) : signed32 (immSigned imm) = signed16 imm := by
  rw [← toInt_eq_signed32, toInt_immSigned]

theorem msb_immSigned (imm : BitVec 16) : (immSigned imm).msb = imm.msb := by
  simp [immSigned, sext16, BitVec.msb_signExtend]

theorem toNat_immSigned (imm : BitVec 16) : (immSigned imm).toNat = sext16Value imm := by
  rw [immSigned, sext16, BitVec.toNat_signExtend, BitVec.toNat_setWidth_of_le (by omega), BitVec.msb_eq_decide, sext16Value]
  rcases Nat.lt_or_ge imm.toNat 32768 with h | h <;> simp [h]

theorem getLsbD_immLogical (imm : BitVec 16) {k : Nat} (hk : k < 32) : (immLogical imm).getLsbD k = imm.getLsbD k := by
  simp [immLogical, zext16, hk]

theorem getLsbD_immUpper (imm : BitVec 16) {k : Nat} (hk : k < 32) :
    (immUpper imm).getLsbD k = (decide (16 ≤ k) && imm.getLsbD (k - 16)) := by
  rcases Nat.lt_or_ge k 16 with h | h <;> simp [immUpper, zext16, hk, h]

/-! ## Sums and differences modulo 2^32 -/

theorem add_eq_ofNat (a b : Word) : a + b = BitVec.ofNat 32 ((a.toNat + b.toNat) % 2 ^ 32) :=
  BitVec.eq_of_toNat_eq (by simp)

theorem sub_eq_ofNat (a b : Word) : a - b = BitVec.ofNat 32 ((a.toNat + 2 ^ 32 - b.toNat) % 2 ^ 32) := by
  apply BitVec.eq_of_toNat_eq
  rw [BitVec.toNat_sub, BitVec.toNat_ofNat, Nat.mod_mod]
  congr 1
  omega

theorem add_immSigned_eq_ofInt (a : Word) (imm : BitVec 16) :
    a + immSigned imm = BitVec.ofInt 32 (a.toNat + signed16 imm) := by
  rw [← toInt_immSigned, BitVec.ofInt_add, BitVec.ofInt_toInt, BitVec.ofInt_natCast, BitVec.ofNat_toNat,
    BitVec.setWidth_eq]

/-! ## Comparisons -/

theorem boolWord_lessSigned (a b : Word) : boolWord (lessSigned a b) = if signed32 a < signed32 b then 1 else 0 := by
  simp only [boolWord, lessSigned, decide_eq_true_eq, toInt_eq_signed32]

theorem boolWord_lessUnsigned (a b : Word) : boolWord (lessUnsigned a b) = if a.toNat < b.toNat then 1 else 0 := by
  simp only [boolWord, lessUnsigned, decide_eq_true_eq]

/-! ## Shifts by a power of two -/

theorem shiftLeft_eq_ofNat (a : Word) (n : Nat) : a <<< n = BitVec.ofNat 32 (a.toNat * 2 ^ n) :=
  BitVec.eq_of_toNat_eq (by rw [BitVec.toNat_shiftLeft, BitVec.toNat_ofNat, Nat.shiftLeft_eq])

theorem ushiftRight_eq_ofNat (a : Word) (n : Nat) : a >>> n = BitVec.ofNat 32 (a.toNat / 2 ^ n) := by
  rw [← Nat.shiftRight_eq_div_pow, ← BitVec.toNat_ushiftRight, BitVec.ofNat_toNat, BitVec.setWidth_eq]

/-- The arithmetic shift is the floor division, which rounds toward minus infinity (R163, R166). -/
theorem sshiftRight_eq_ofInt (a : Word) (n : Nat) : a.sshiftRight n = BitVec.ofInt 32 (signed32 a / 2 ^ n) := by
  rw [BitVec.sshiftRight, Int.shiftRight_eq_div_pow, toInt_eq_signed32, Nat.cast_pow, Nat.cast_ofNat]

/-! ## Products -/

/-- The two halves of a product make up its residue modulo 2^64 (R169, R170). -/
theorem productHi_productLo (p : Int) :
    ((productHi p).toNat : Int) * 2 ^ 32 + (productLo p).toNat = p % 2 ^ 64 := by
  have hp : ((BitVec.ofInt 64 p).toNat : Int) = p % 2 ^ 64 := by
    rw [BitVec.toNat_ofInt]
    omega
  rw [← hp, productHi, productLo, BitVec.extractLsb'_toNat, BitVec.extractLsb'_toNat, Nat.shiftRight_eq_div_pow,
    Nat.shiftRight_eq_div_pow]
  omega

theorem productHi_productLo_of_words (a b : Word) :
    (productHi (a.toNat * b.toNat)).toNat * 2 ^ 32 + (productLo (a.toNat * b.toNat)).toNat = a.toNat * b.toNat := by
  have hlt : a.toNat * b.toNat < 2 ^ 32 * 2 ^ 32 := Nat.mul_lt_mul'' a.isLt b.isLt
  have h := productHi_productLo (a.toNat * b.toNat)
  rw [← Nat.cast_mul] at h ⊢
  omega

/-! ## Quotients -/

/-- Division with the quotient rounded toward zero leaves a remainder shorter than the divisor with the dividend's sign (R171). -/
theorem tdiv_tmod_spec (n : Int) {d : Int} (hd : d ≠ 0) :
    n = n.tdiv d * d + n.tmod d ∧ (n.tmod d).natAbs < d.natAbs ∧ (0 ≤ n → 0 ≤ n.tmod d) ∧ (n ≤ 0 → n.tmod d ≤ 0) := by
  refine ⟨(Int.tdiv_mul_add_tmod n d).symm, ?_, Int.tmod_nonneg d, fun hn => ?_⟩
  · rw [Int.natAbs_tmod]
    exact Nat.mod_lt _ (Int.natAbs_pos.mpr hd)
  · have h : 0 ≤ (-n).tmod d := Int.tmod_nonneg d (by omega)
    rw [Int.neg_tmod] at h
    omega

theorem signed32_ne_zero {v : Word} (h : v ≠ 0) : signed32 v ≠ 0 := fun h0 =>
  h (BitVec.eq_of_toInt_eq ((toInt_eq_signed32 v).trans (h0.trans BitVec.toInt_zero.symm)))

end Sys2Proof.Machine
end

section
/-! PROOF. The statements about the arithmetic family. -/

namespace Sys2Proof.Proofs

open Sys2Proof.Machine

/-- Settles O22: the three instructions share one end, which tests whether the exact result fits. -/
theorem trappingArithmeticResults : Obligations.TrappingArithmeticResults := by
  intro s rd rs rt imm i d e h
  have hx : exactResult i s d e := by
    obtain ⟨rfl, rfl, rfl⟩ | ⟨rfl, rfl, rfl⟩ | ⟨rfl, rfl, rfl⟩ := h
    · exact .inl ⟨rs, rt, rfl, rfl⟩
    · exact .inr (.inl ⟨rs, rt, rfl, rfl⟩)
    · exact .inr (.inr ⟨rs, imm, rfl, rfl⟩)
  rw [exec_of_exactResult hx]
  refine ⟨fun hlo hhi => ?_, fun hout => ?_⟩
  · rw [writeOrOverflow_of_fits (by rw [OutsideSigned]; omega)]
    exact writeResult_writes d _ s
  · exact ⟨_, writeOrOverflow_of_outside hout d s, takesFault_raiseFault _ _ s⟩

/-- Settles O23: the fault is taken exactly if the exact result does not fit, which the sign bits tell. -/
theorem overflowIsReadOffTheSignBits : Obligations.OverflowIsReadOffTheSignBits := by
  intro s rd rs rt imm hr
  rw [exec_of_exactResult (.inl ⟨rs, rt, rfl, rfl⟩), exec_of_exactResult (.inr (.inr ⟨rs, imm, rfl, rfl⟩)),
    exec_of_exactResult (.inr (.inl ⟨rs, rt, rfl, rfl⟩)), ← signed32_immSigned, ← msb_immSigned]
  simp only [writeOrOverflow_faults_iff hr]
  exact ⟨outsideSigned_add_iff _ _, outsideSigned_add_iff _ _, outsideSigned_sub_iff _ _⟩

/-- Settles O24: each operation acts on every bit alone, and the immediate's upper bits are zero. -/
theorem bitwiseResults : Obligations.BitwiseResults := by
  intro s rd rs rt imm i d f h
  suffices hv : ∃ v, exec i s = writeResult d v s ∧ ∀ k, k < 32 → v.getLsbD k = f k by
    obtain ⟨v, he, hbits⟩ := hv
    obtain ⟨t, ht, hw⟩ := writeResult_writes d v s
    exact ⟨t, v, he.trans ht, hw, hbits⟩
  obtain ⟨rfl, rfl, rfl⟩ | ⟨rfl, rfl, rfl⟩ | ⟨rfl, rfl, rfl⟩ | ⟨rfl, rfl, rfl⟩ | ⟨rfl, rfl, rfl⟩ | ⟨rfl, rfl, rfl⟩ |
    ⟨rfl, rfl, rfl⟩ | ⟨rfl, rfl, rfl⟩ := h
  · exact ⟨_, rfl, fun _ _ => BitVec.getLsbD_and⟩
  · exact ⟨_, rfl, fun _ _ => BitVec.getLsbD_or⟩
  · exact ⟨_, rfl, fun _ _ => BitVec.getLsbD_xor⟩
  · exact ⟨_, rfl, fun _ hk => by simp [hk]⟩
  · exact ⟨_, rfl, fun _ hk => by rw [BitVec.getLsbD_and, getLsbD_immLogical imm hk]⟩
  · exact ⟨_, rfl, fun _ hk => by rw [BitVec.getLsbD_or, getLsbD_immLogical imm hk]⟩
  · exact ⟨_, rfl, fun _ hk => by rw [BitVec.getLsbD_xor, getLsbD_immLogical imm hk]⟩
  · exact ⟨_, rfl, fun _ hk => getLsbD_immUpper imm hk⟩

/-- Settles O26: each shift multiplies or divides by a power of two, whatever the source of the amount. -/
theorem shiftResults : Obligations.ShiftResults := by
  intro s rd rt rs sa i v h
  obtain ⟨rfl, rfl⟩ | ⟨rfl, rfl⟩ | ⟨rfl, rfl⟩ | ⟨rfl, rfl⟩ | ⟨rfl, rfl⟩ | ⟨rfl, rfl⟩ := h
  · exact writeResult_writes_of_eq (shiftLeft_eq_ofNat _ (shiftConst sa)) rd s
  · exact writeResult_writes_of_eq (ushiftRight_eq_ofNat _ (shiftConst sa)) rd s
  · exact writeResult_writes_of_eq (sshiftRight_eq_ofInt _ (shiftConst sa)) rd s
  · exact writeResult_writes_of_eq (shiftLeft_eq_ofNat _ (shiftVar s rs)) rd s
  · exact writeResult_writes_of_eq (ushiftRight_eq_ofNat _ (shiftVar s rs)) rd s
  · exact writeResult_writes_of_eq (sshiftRight_eq_ofInt _ (shiftVar s rs)) rd s

/-- Settles O27: HI and LO are the halves of the product modulo 2^64, which the unsigned product does not reach. -/
theorem multiplyResults : Obligations.MultiplyResults := by
  intro s rs rt
  simp only [← toInt_eq_signed32]
  obtain ⟨t, ht, hw⟩ := writeHiLo_writesHiLo (productHi ((s.reg rs).toInt * (s.reg rt).toInt))
    (productLo ((s.reg rs).toInt * (s.reg rt).toInt)) s
  obtain ⟨u, hu, hwu⟩ := writeHiLo_writesHiLo (productHi ((s.reg rs).toNat * (s.reg rt).toNat))
    (productLo ((s.reg rs).toNat * (s.reg rt).toNat)) s
  exact ⟨⟨t, _, _, ht, hw, productHi_productLo _⟩, ⟨u, _, _, hu, hwu, productHi_productLo_of_words _ _⟩⟩

/-- Settles O28: the quotients are those of the library, rounded toward zero, and their remainders are shorter than the divisor. -/
theorem divideResults : Obligations.DivideResults := by
  intro s rs rt
  refine ⟨fun hz => ?_, fun hnz => ⟨?_, ?_⟩⟩
  · have hdiv : exec (.div rs rt) s = divByZero s := if_pos hz
    have hdivu : exec (.divu rs rt) s = divByZero s := if_pos hz
    rw [hdiv, hdivu]
    exact ⟨writeHiLo_writesHiLo s.hi s.lo s, writeHiLo_writesHiLo s.hi s.lo s⟩
  · have hdiv : exec (.div rs rt) s = writeHiLo _ _ s := if_neg hnz
    simp only [toInt_eq_signed32] at hdiv
    obtain ⟨t, ht, hw⟩ := writeHiLo_writesHiLo _ _ s
    exact ⟨t, _, _, hdiv.trans ht, hw, tdiv_tmod_spec _ (signed32_ne_zero hnz)⟩
  · have hdivu : exec (.divu rs rt) s = writeHiLo _ _ s := if_neg hnz
    rw [← BitVec.umod_def, ← BitVec.udiv_def] at hdivu
    obtain ⟨t, ht, hw⟩ := writeHiLo_writesHiLo _ _ s
    refine ⟨t, _, _, hdivu.trans ht, hw, ?_⟩
    rw [BitVec.toNat_umod, BitVec.toNat_udiv, Nat.div_add_mod']
    exact ⟨rfl, Nat.mod_lt _ (BitVec.toNat_pos_of_ne_zero hnz)⟩

/-- Settles O21: the wrapped sums and differences of the model are those of the unsigned readings. -/
theorem wrappingArithmeticResults : Obligations.WrappingArithmeticResults := fun s rd _ rt imm =>
  ⟨writeResult_writes_of_eq (add_eq_ofNat _ _) rd s, writeResult_writes_of_eq (sub_eq_ofNat _ _) rd s,
    writeResult_writes_of_eq (add_immSigned_eq_ofInt _ imm) rt s⟩

/-- Settles O25: the four comparisons are two, on a register or on the sign-extended immediate. -/
theorem comparisonResults : Obligations.ComparisonResults := by
  intro s rd rs rt imm
  rw [← signed32_immSigned, ← toNat_immSigned]
  exact ⟨writeResult_writes_of_eq (boolWord_lessSigned _ _) rd s, writeResult_writes_of_eq (boolWord_lessUnsigned _ _) rd s,
    writeResult_writes_of_eq (boolWord_lessSigned _ _) rt s, writeResult_writes_of_eq (boolWord_lessUnsigned _ _) rt s⟩

/-- Settles O29: each move is one of the two writes of the family. -/
theorem hiLoMoveResults : Obligations.HiLoMoveResults := fun s rd rs =>
  ⟨writeResult_writes rd s.hi s, writeResult_writes rd s.lo s, writeHiLo_writesHiLo (s.reg rs) s.lo s,
    writeHiLo_writesHiLo s.hi (s.reg rs) s⟩

end Sys2Proof.Proofs
end

section
/-! PROOF. What a load obtains and what a store leaves (R190 to R198): the extensions of a read value as the spec's signed readings,
the bytes of a stored word, and the two shared ends of the memory family as the statements' shapes. -/

namespace Sys2Proof.Machine

variable {s : State}

/-! ## Extended values -/

theorem toInt_eq_signed8 (v : Byte) : v.toInt = signed8 v := by
  rw [BitVec.toInt_eq_toNat_cond, signed8]
  split <;> split <;> omega

theorem toInt_eq_signed16 (v : BitVec 16) : v.toInt = signed16 v := by
  rw [BitVec.toInt_eq_toNat_cond, signed16]
  split <;> split <;> omega

theorem sext8OfLow_ofNat (x : Nat) : sext8OfLow (BitVec.ofNat 32 x) = BitVec.ofInt 32 (signed8 (BitVec.ofNat 8 x)) := by
  rw [sext8OfLow, BitVec.setWidth_ofNat_of_le (by omega), BitVec.signExtend, toInt_eq_signed8]

theorem sext16OfLow_ofNat (x : Nat) : sext16OfLow (BitVec.ofNat 32 x) = BitVec.ofInt 32 (signed16 (BitVec.ofNat 16 x)) := by
  rw [sext16OfLow, BitVec.setWidth_ofNat_of_le (by omega), BitVec.signExtend, toInt_eq_signed16]

/-! ## Loads -/

theorem read_eq_ofNat (m : Memory) (w : Width) (a : Nat) : m.read w a = BitVec.ofNat 32 (bytesValue m a w.bytes) := by
  rw [← toNat_read, BitVec.ofNat_toNat, BitVec.setWidth_eq]

/-- A load whose check passes writes the extended number of its bytes and nothing else (R190). -/
theorem loadInto_writes {w : Width} {rs : RegIdx} {imm : BitVec 16} {ext : Word → Word} {v : Word}
    (h : DataAccessible (effectiveAddress s rs imm) w.bytes)
    (hv : ext (BitVec.ofNat 32 (bytesValue s.mem (effectiveAddress s rs imm).toNat w.bytes)) = v) (rt : RegIdx) :
    ∃ t, loadInto w ext rt imm rs s = .next t ∧ Writes rt v s t := by
  rw [loadInto_of_accessible h, read_eq_ofNat, hv]
  exact writeResult_writes rt v s

/-! ## Stores -/

theorem toNat_byteOfWord (v : Word) (k : Nat) : (byteOfWord v k).toNat = v.toNat / 256 ^ k % 256 := by
  rw [byteOfWord, BitVec.extractLsb'_toNat, Nat.shiftRight_eq_div_pow, Nat.pow_mul]

/-- A write of memory, with `pc` advanced, stores the low bytes of its value and changes nothing else (R59, R61, R64). -/
theorem stores_write (hw : s.mem.wf) (w : Width) (a : Nat) (v : Word) :
    Stores w.bytes a v s (s.setMem (s.mem.write w a v)).advance := by
  refine ⟨fun k hk => ?_, fun x hx => ?_, fun x => ?_, rfl, fun _ => rfl, ⟨rfl, rfl⟩,
    rfl, rfl, rfl, rfl, rfl, rfl, rfl, rfl, rfl, rfl, rfl⟩
  · rw [advance_mem, setMem_mem, byte_write hw, if_pos (by omega), Nat.add_sub_cancel_left, toNat_byteOfWord]
  · rw [advance_mem, setMem_mem, byte_write hw, if_neg (by omega)]
  · simp [isPresent_write]

end Sys2Proof.Machine
end

section
/-! PROOF. The statements about the results of loads and stores. -/

namespace Sys2Proof.Proofs

open Sys2Proof.Machine

/-- Settles O34: the five loads are one read, of the number of the bytes, under three extensions. -/
theorem loadResults : Obligations.LoadResults := by
  intro s rt rs imm i n v h ha
  obtain ⟨rfl, rfl, rfl⟩ | ⟨rfl, rfl, rfl⟩ | ⟨rfl, rfl, rfl⟩ | ⟨rfl, rfl, rfl⟩ | ⟨rfl, rfl, rfl⟩ := h
  · exact loadInto_writes (w := .byte) ha (sext8OfLow_ofNat _) rt
  · exact loadInto_writes (w := .byte) (ext := id) ha rfl rt
  · exact loadInto_writes (w := .half) ha (sext16OfLow_ofNat _) rt
  · exact loadInto_writes (w := .half) (ext := id) ha rfl rt
  · exact loadInto_writes (w := .word) (ext := id) ha rfl rt

/-- Settles O35: each store whose check passes is the write of its width at the effective address. -/
theorem storeResults : Obligations.StoreResults := by
  intro s rt rs imm i n hw hst ha
  obtain ⟨w, rfl, -, -, he⟩ := exec_of_storeAccess hst
  exact ⟨_, by rw [he, storeFrom_of_accessible ha], stores_write hw w _ _⟩

end Sys2Proof.Proofs
end

section
/-! PROOF. The system instructions (R211, R212): the words of `syscall` and `break`, what the two do, and their statements. -/

namespace Sys2Proof

variable {w : Word} {i : Instr}

/-- A word decodes to an instruction of the machine exactly if it is the instruction's encoding (R97). -/
theorem decodeWord_eq_ok_iff (hwf : i.wellFormed = true) : decodeWord w = .ok i ↔ encode i = w := by
  refine ⟨encode_of_decodeWord, ?_⟩
  rintro rfl
  exact decodeWord_encode hwf

theorem decodeWord_eq_syscall : decodeWord w = .ok .syscall ↔ w = 0x0000000c :=
  (decodeWord_eq_ok_iff rfl).trans eq_comm

/-- The `break` pattern fixes the major opcode and `funct`, and leaves the code free (R212). -/
theorem fits_break_iff : w &&& 0xfc00003f#32 = 0x0000000d#32 ↔ fieldOp w = 0 ∧ fieldFunct w = 0x0d := by
  simp [and_eq_iff_fields]

theorem decodeWord_eq_break {code : BitVec 20} :
    decodeWord w = .ok (.break_ code) ↔ fieldOp w = 0 ∧ fieldFunct w = 0x0d ∧ fieldCode w = code :=
  (decodeWord_eq_ok_iff rfl).trans packBreak_eq_iff

namespace Machine

variable {s : State}

theorem exec_break (code : BitVec 20) (s : State) : exec (.break_ code) s = .next (raiseFault .other s.pc s) := rfl

theorem exec_syscall_of_exit (h : s.reg 2 = 10) : exec .syscall s = .next (terminate .normalCompletion s) := if_pos h

theorem exec_syscall_of_other_service (h : s.reg 2 ≠ 10) : exec .syscall s = .next (raiseFault .other s.pc s) := if_neg h

end Machine

end Sys2Proof

namespace Sys2Proof.Proofs

open Sys2Proof.Machine

/-- Settles O39: the pattern and the decoder test the same two fields, and the code is whatever the rest of the word holds. -/
theorem breakRaisesOther : Obligations.BreakRaisesOther := by
  refine ⟨fun w => ?_, fun s code => ⟨_, exec_break code s, takesFault_raiseFault _ _ s⟩⟩
  simp only [fits_break_iff, decodeWord_eq_break, exists_and_left, exists_eq', and_true]

/-- Settles O38: encode of decode pins the word, and the two cases are those of the test of `$v0`. -/
theorem syscallExitsOrRaisesOther : Obligations.SyscallExitsOrRaisesOther := by
  refine ⟨fun w => decodeWord_eq_syscall, fun s => ⟨fun hexit => ?_, fun hother => ?_⟩⟩
  · exact ⟨_, exec_syscall_of_exit hexit, takesTermination_terminate _ s, rfl⟩
  · exact ⟨_, exec_syscall_of_other_service hother, takesFault_raiseFault _ _ s⟩

end Sys2Proof.Proofs
end

section
/-! PROOF. What a run does: the outcome of a core step and of a step (R226, R228, R245), the tests of the step boundary as
conditions on its input (R246 to R249), and the report (R235, R236). -/

namespace Sys2Proof.Machine

variable {s t : State}

/-! ## The core step -/

/-- What a core step makes of a run: it completes, takes a fault, or ends the program without one. -/
inductive CoreOutcome (s : State) : State → Prop where
  | completes {t : State} (hrun : t.runState = .running) (hkeeps : KeepsControl s t) : CoreOutcome s t
  | faults (k : FaultKind) (a : Word) : CoreOutcome s (raiseFault k a s)
  | ends {r : Reason} (hends : r = .normalCompletion ∨ r = .cliffTermination) : CoreOutcome s (terminate r s)

theorem Effect.Fits.coreOutcome {i : Instr} {e : Effect} (he : e.Fits i s) (hr : s.runState = .running) :
    CoreOutcome s (e.apply s) := by
  cases e
  case fault k a => exact .faults k a
  case finish r =>
    obtain ⟨-, rfl⟩ | ⟨-, rfl, -⟩ := he
    · exact .ends (.inr rfl)
    · exact .ends (.inl rfl)
  all_goals exact .completes hr (Effect.keepsControl hr)

theorem coreStep_outcome (hr : s.runState = .running) : ∃ t, coreStep s = .next t ∧ CoreOutcome s t := by
  obtain ⟨k, -, heq⟩ | ⟨_, _, -, -, heq⟩ | ⟨_, i, -, -, heq⟩ := coreStep_cases hr
  · exact ⟨_, heq, .faults k s.pc⟩
  · exact ⟨_, heq, .faults .invalidInstruction s.pc⟩
  · obtain ⟨e, he⟩ := exec_effect i s
    exact ⟨_, heq.trans he.exec_eq, he.1.coreOutcome hr⟩

theorem coreOutcome_of_coreStep (hr : s.runState = .running) (hc : coreStep s = .next t) : CoreOutcome s t := by
  obtain ⟨u, hu, hout⟩ := coreStep_outcome hr
  obtain rfl : u = t := by simpa [hu] using hc
  exact hout

/-! ## The step boundary -/

theorem takeSignals_stopReq (s : State) :
    (takeSignals s).stopReq = true ↔ s.stopReq = true ∨ ∃ g rest, s.signals = g :: rest ∧ g.stop = true := by
  unfold takeSignals
  split <;> simp [*]

theorem takeSignals_pauseReq (s : State) :
    (takeSignals s).pauseReq = true ↔ s.pauseReq = true ∨ ∃ g rest, s.signals = g :: rest ∧ g.pause = true := by
  unfold takeSignals
  split <;> simp [*]

theorem limitReached_iff : limitReached s = true ↔ 0 < s.stepLimit ∧ (s.stepCount : Int) = s.stepLimit := by
  simp [limitReached]

theorem breakpointHit_iff : breakpointHit s = true ↔ s.mode = .continuous ∧ s.pc ∈ s.bpSnapshot := by
  simp [breakpointHit]

/-- The controller leaves the hardware block as it is (R240). -/
theorem sameBlock_stepBoundary (s : State) : SameBlock s (stepBoundary s) := by
  obtain ⟨hregs, hpc, hhi, hlo, hmem, -⟩ := stepBoundary_block s
  exact ⟨fun r => (reg_congr hregs r).symm, hpc.symm, hhi.symm, hlo.symm, hmem.symm⟩

/-- The tests end the invocation or leave the state as it is. -/
theorem boundaryTests_outcome (s : State) : boundaryTests s = s ∨
    ∃ r ≠ Reason.fault, boundaryTests s = endInvocation (if r.ends then .terminated else .paused) r s := by
  obtain ⟨-, e⟩ | ⟨-, -, e⟩ | ⟨-, -, -, e⟩ | ⟨-, -, -, -, e⟩ | ⟨-, -, -, -, e⟩ := boundaryTests_cases s
  · exact .inr ⟨.stepLimit, by decide, e⟩
  · exact .inr ⟨.breakpoint, by decide, e⟩
  · exact .inr ⟨.stop, by decide, e⟩
  · exact .inr ⟨.pause, by decide, e⟩
  · exact .inl e

/-- The tests use up no request. -/
theorem boundaryTests_signals (s : State) : (boundaryTests s).signals = s.signals := by
  obtain e | ⟨r, -, e⟩ := boundaryTests_outcome s <;> rw [e]
  exact endInvocation_signals _ r s

theorem stepBoundary_signals (hr : s.runState = .running) : (stepBoundary s).signals = s.signals.tail := by
  rw [stepBoundary_running hr, boundaryTests_signals, takeSignals_signals, countStep_signals]

/-! ## The step -/

/-- What a step makes of a run: it goes on, takes a fault, or ends with another reason. -/
inductive StepOutcome (s : State) : State → Prop where
  | goesOn {t : State} (hrun : t.runState = .running) (hreason : t.lastReason = s.lastReason)
      (hrecord : t.faultRecord = s.faultRecord) : StepOutcome s t
  | faults (k : FaultKind) (a : Word) : StepOutcome s (raiseFault k a s)
  | ends {u : State} {r : Reason} (hr : r ≠ .fault) (hrecord : u.faultRecord = s.faultRecord) :
      StepOutcome s (endInvocation (if r.ends then .terminated else .paused) r u)

theorem CoreOutcome.stepBoundary (h : CoreOutcome s t) : StepOutcome s (stepBoundary t) := by
  cases h with
  | completes hrun hkeeps =>
    obtain ⟨-, hrecord, hreason, -⟩ := hkeeps
    rw [stepBoundary_running hrun]
    obtain e | ⟨r, hr, e⟩ := boundaryTests_outcome (takeSignals (countStep t)) <;> rw [e]
    · exact .goesOn (by simpa using hrun) (by simpa using hreason) (by simpa using hrecord)
    · exact .ends hr (by simpa using hrecord)
  | faults k a =>
    rw [stepBoundary_ended (by simp)]
    exact .faults k a
  | ends hends =>
    rw [stepBoundary_ended (by simp)]
    obtain rfl | rfl := hends
    · exact .ends (r := .normalCompletion) (by decide) rfl
    · exact .ends (r := .cliffTermination) (by decide) rfl

theorem step_outcome (hr : s.runState = .running) : ∃ t, step s = .next t ∧ StepOutcome s t := by
  obtain ⟨u, hc, hout⟩ := coreStep_outcome hr
  exact ⟨_, step_running hr hc, hout.stepBoundary⟩

theorem stepOutcome_of_step (hr : s.runState = .running) (hs : step s = .next t) : StepOutcome s t := by
  obtain ⟨u, hu, hout⟩ := step_outcome hr
  obtain rfl : u = t := by simpa [hu] using hs
  exact hout

/-! ## The report -/

/-- The step that ends an invocation delivers the report of its reason (R235, R236). -/
theorem deliveredReport_of_ended (hs : s.runState = .running) (ht : t.runState ≠ .running) {r : Reason}
    (hl : t.lastReason = some r) : deliveredReport s t =
      some ⟨decide (t.runState = .terminated), r, if r = .fault then t.faultRecord else none⟩ := by
  simp [deliveredReport, State.report, hs, ht, hl]

theorem deliveredReport_of_running (ht : t.runState = .running) : deliveredReport s t = none := by
  simp [deliveredReport, ht]

theorem deliveredReport_of_stopped (hs : s.runState ≠ .running) : deliveredReport s t = none := by
  simp [deliveredReport, hs]

theorem runToReport_of_step {r : Report} (hs : step s = .next t) (hd : deliveredReport s t = some r) (fuel : Nat) :
    runToReport (fuel + 1) s = some (r, t) := by
  simp [runToReport, hs, hd]

/-! ## The cause of an execution's fault -/

/-- Only the effect of a fault leaves a fault record where there was none. -/
theorem Effect.eq_fault_of_faultRecord {e : Effect} {f : FaultRecord} (hnone : s.faultRecord = none)
    (hf : (e.apply s).faultRecord = some f) : e = .fault f.kind f.faultingAddress := by
  cases e
  case fault k a =>
    obtain rfl := Option.some.inj hf
    rfl
  all_goals cases hnone.symm.trans hf

/-! ## The decoded instruction -/

/-- The decoder reads the bytes of the word at an address as the word (R64). -/
theorem decodeWord_of_decodeBytes {m : Memory} {a : Nat} {i : Instr} {rest : List Byte}
    (h : decodeBytes [m.byte a, m.byte (a + 1), m.byte (a + 2), m.byte (a + 3)] = .ok (i, rest)) :
    decodeWord (m.word a) = .ok i := by
  rw [Memory.word]
  simp only [decodeBytes] at h
  split at h
  case h_1 j hd =>
    cases h
    exact hd
  case h_2 => cases h

end Sys2Proof.Machine
end

section
/-! PROOF. The statements about faults, the step and the boundary of a step. -/

namespace Sys2Proof.Proofs

open Sys2Proof.Machine

/-- Settles O42: a step writes the record only by taking the fault, and taking a fault is precise. -/
theorem faultsArePrecise : Obligations.FaultsArePrecise := by
  intro s t f hr hnone hs hf
  cases stepOutcome_of_step hr hs with
  | goesOn _ _ hrecord => cases (hrecord.trans hnone).symm.trans hf
  | ends _ hrecord => cases (hrecord.trans hnone).symm.trans hf
  | faults k a =>
    obtain rfl := Option.some.inj hf
    exact ⟨takesFault_raiseFault k a s, deliveredReport_of_ended hr (by simp) rfl⟩

/-- Settles O43: the effect of an instruction is a fault only for one of these causes. -/
theorem executeFaultsHaveTheListedCauses : Obligations.ExecuteFaultsHaveTheListedCauses := by
  intro i s t f hnone hs hf
  obtain ⟨e, he⟩ := exec_effect i s
  obtain rfl : e.apply s = t := by simpa [he.exec_eq] using hs
  obtain ⟨hfits, -⟩ := he
  obtain rfl := Effect.eq_fault_of_faultRecord hnone hf
  obtain ⟨rt, rs, imm, n, hacc, haddr, hfail⟩ | ⟨hkind, hcause⟩ | ⟨hkind, hcause⟩ := hfits
  · rw [haddr] at hfail
    obtain ⟨hkind, hal⟩ | ⟨hkind, hal, hin⟩ := hfail
    · exact .inl ⟨hkind, rt, rs, imm, n, hacc, haddr, hal⟩
    · exact .inr (.inl ⟨hkind, rt, rs, imm, n, hacc, haddr, hal, hin⟩)
  · exact .inr (.inr (.inl ⟨hkind, hcause⟩))
  · exact .inr (.inr (.inr ⟨hkind, hcause⟩))

/-- Settles O45: a running machine's step has an outcome, and a machine at rest stays as it is. -/
theorem stepAlwaysAnswersNext : Obligations.StepAlwaysAnswersNext := by
  intro s
  by_cases hr : s.runState = .running
  · obtain ⟨t, hs, -⟩ := step_outcome hr
    exact ⟨t, hs, fun h => absurd hr h⟩
  · exact ⟨s, step_stopped hr, fun _ => rfl⟩

/-- Settles O49: an invocation that ends takes its run state from its reason. -/
theorem runStateFollowsTheReason : Obligations.RunStateFollowsTheReason := by
  intro s t hr hs
  cases stepOutcome_of_step hr hs with
  | goesOn hrun hreason => exact .inl ⟨hrun, hreason⟩
  | faults k a => exact .inr ⟨.fault, rfl, .inl ⟨rfl, .inr (.inr (.inl rfl))⟩⟩
  | @ends u r =>
    refine .inr ⟨r, rfl, ?_⟩
    cases r <;> simp [Reason.ends]

/-- Settles O50: every end of an invocation is `endInvocation`, which clears the bookkeeping and leaves the reason to report. -/
theorem endOfInvocationClearsAndReportsOnce : Obligations.EndOfInvocationClearsAndReportsOnce := by
  intro s t hr hs
  refine ⟨fun ht => ?_, deliveredReport_of_running, fun u hu ht => ?_⟩
  · cases stepOutcome_of_step hr hs with
    | goesOn hrun => exact absurd hrun ht
    | faults k a => exact ⟨⟨rfl, rfl, rfl, rfl, rfl⟩, rfl, rfl, .fault, rfl, deliveredReport_of_ended hr ht rfl⟩
    | @ends u r => exact ⟨⟨rfl, rfl, rfl, rfl, rfl⟩, rfl, rfl, r, rfl, deliveredReport_of_ended hr ht rfl⟩
  · obtain rfl : t = u := by simpa [step_stopped ht] using hu
    exact ⟨rfl, deliveredReport_of_stopped ht⟩

/-- Settles O51: the conditions of the four tests, read before the count and the requests, and the branch of the tests that each
combination of them takes. -/
theorem boundaryTestsInOrder : Obligations.BoundaryTestsInOrder := by
  intro s u hr hc
  refine ⟨step_of_ended hr hc, fun hu => ?_⟩
  intro n stop pause limit hit
  have hlimit : limitReached (takeSignals (countStep u)) = true ↔ limit := by simp [limitReached_iff, limit, n]
  have hhit : breakpointHit (takeSignals (countStep u)) = true ↔ hit := by simp [breakpointHit_iff, hit]
  have hstop : (takeSignals (countStep u)).stopReq = true ↔ stop := takeSignals_stopReq _
  have hpause : (takeSignals (countStep u)).pauseReq = true ↔ pause := takeSignals_pauseReq _
  obtain ⟨-, -, -, -, -, hrecord⟩ := stepBoundary_block u
  refine ⟨_, step_running hr hc, sameBlock_stepBoundary u, hrecord, stepBoundary_signals hu, ?_⟩
  rw [stepBoundary_running hu, boundaryTests]
  refine ⟨fun hl => ?_, fun hnl hh => ?_, fun hnl hnh hs => ?_, fun hnl hnh hns hp => ?_, fun hnl hnh hns hnp => ?_⟩
  · simp [hlimit, hl]
  · simp [hlimit, hnl, hhit, hh]
  · simp [hlimit, hnl, hhit, hnh, hstop, hs]
  · simp [hlimit, hnl, hhit, hnh, hstop, hns, hpause, hp]
  · simp [hlimit, hnl, hhit, hnh, hstop, hns, hpause, hnp, hu, n]

/-- Settles O44: the bytes at `pc` are those of the fetched word, and the boundary leaves an ended run as it is. -/
theorem stepRunsTheDecodedInstruction : Obligations.StepRunsTheDecodedInstruction := by
  intro s t i rest hr hf hd he
  have hc : coreStep s = .next t := by simp [coreStep, hr, fetch_eq hf, decodeWord_of_decodeBytes hd, he]
  exact ⟨step_running hr hc, step_of_ended hr hc⟩

end Sys2Proof.Proofs
end

section
/-! PROOF. The host calls (R242, R243, R248, R280, R281): what a run request begins, when `pc` is at a call, and the invariant
under the start of an invocation, under a request and under load. -/

namespace Sys2Proof.Machine

variable {s t : State}

/-! ## Run requests -/

/-- Everything the admission of a run request can answer (R242). -/
theorem admitRun_cases (start : State → State) (s : State) :
    ((s.runState = .idle ∨ s.runState = .paused) ∧ admitRun start s = (.accepted, start s)) ∨
    ((s.runState = .running ∨ s.runState = .terminated) ∧ admitRun start s = (.usageError, s)) := by
  cases h : s.runState <;> simp [admitRun, h]

theorem admitRun_of_waiting (start : State → State) (h : s.runState = .idle ∨ s.runState = .paused) :
    admitRun start s = (.accepted, start s) := by
  obtain h | h := h <;> simp [admitRun, h]

theorem admitRun_of_not_waiting (start : State → State) (h : s.runState = .running ∨ s.runState = .terminated) :
    admitRun start s = (.usageError, s) := by
  obtain h | h := h <;> simp [admitRun, h]

theorem eq_start_of_accepted {start : State → State} (h : admitRun start s = (.accepted, t)) : t = start s := by
  obtain ⟨-, heq⟩ | ⟨-, heq⟩ := admitRun_cases start s <;> cases heq.symm.trans h
  rfl

/-- The arguments agree with their mode: breakpoints ascend, a transient breakpoint is one of a continuous run, and a single step
has a limit of 1 and no breakpoints (R243, R244, R251). -/
structure RunArguments (m : RunMode) (b : List Word) (tr : Option Word) (l : Int) : Prop where
  ascending : b.Pairwise (fun x y => x.toNat < y.toNat)
  transientListed : ∀ a, tr = some a → a ∈ b ∧ m = .continuous
  single : m = .single → l = 1 ∧ b = []

/-- `start` begins an invocation from `s`, with arguments that agree with their mode. -/
def Begins (start : State → State) (s : State) : Prop :=
  ∃ m b tr l, RunArguments m b tr l ∧ start s = beginInvocation m b tr l s

theorem startContinuous_begins (b : List Word) (l : Int) (s : State) : Begins (startContinuous b l) s :=
  ⟨.continuous, breakpointSet b, none, l, ⟨breakpointSet_ascending b, nofun, nofun⟩, rfl⟩

theorem startSingleStep_begins (s : State) : Begins startSingleStep s :=
  ⟨.single, [], none, 1, ⟨List.Pairwise.nil, nofun, fun _ => ⟨rfl, rfl⟩⟩, rfl⟩

theorem startStepOver_of_call (h : atCall s = true) (b : List Word) (l : Int) : startStepOver b l s =
    beginInvocation .continuous (insertBreakpoint (breakpointSet b) s.nextPc) (some s.nextPc) l s := if_pos h

theorem startStepOver_of_not_call (h : atCall s = false) (b : List Word) (l : Int) :
    startStepOver b l s = startSingleStep s := if_neg (by simp [h])

theorem startStepOver_begins (b : List Word) (l : Int) (s : State) : Begins (startStepOver b l) s := by
  cases h : atCall s with
  | false =>
    rw [Begins, startStepOver_of_not_call h]
    exact startSingleStep_begins s
  | true =>
    refine ⟨.continuous, _, some s.nextPc, l, ⟨?_, ?_, nofun⟩, startStepOver_of_call h b l⟩
    · exact insertBreakpoint_ascending (breakpointSet_ascending b) s.nextPc
    · rintro a ⟨⟩
      exact ⟨mem_insertBreakpoint.mpr (.inl rfl), rfl⟩

/-- The three run requests are one admission, of what begins an invocation. -/
theorem hostCall_of_runRequest {c : HostCall} {b : List Word} {l : Int}
    (hc : c = .runContinuous b l ∨ c = .runSingleStep ∨ c = .runStepOver b l) (s : State) :
    ∃ start, hostCall c s = .next (admitRun start s) ∧ Begins start s := by
  obtain rfl | rfl | rfl := hc
  · exact ⟨_, rfl, startContinuous_begins b l s⟩
  · exact ⟨_, rfl, startSingleStep_begins s⟩
  · exact ⟨_, rfl, startStepOver_begins b l s⟩

/-! ## Single step -/

/-- The boundary after the completed core step of a single step is the step limit's, whatever was requested (R249, R252). -/
theorem stepBoundary_of_single (h : KeepsControl (startSingleStep s) t) :
    stepBoundary t = endInvocation .paused .stepLimit (takeSignals (countStep t)) := by
  obtain ⟨hrun, -, -, hcount, -, -, -, -, -, hlimit, -⟩ := h
  have hreached : limitReached (takeSignals (countStep t)) = true := by
    simp [limitReached_iff, hcount, hlimit, startSingleStep]
  rw [stepBoundary_running hrun, boundaryTests, if_pos hreached]

/-! ## Step-over -/

theorem fetchable_of_fetch {w : Word} (h : fetch s = .ok w) : Fetchable s := by
  rw [← checkAccess_fetch]
  unfold fetch at h
  split at h
  case h_1 => cases h
  case h_2 hc => exact hc

/-- Step-over finds a call exactly if the word at `pc` can be fetched and decodes to one (R250). -/
theorem atCall_iff : atCall s = true ↔
    Fetchable s ∧ ∃ i, decodeWord (s.mem.word s.pc.toNat) = .ok i ∧ i.category = .call := by
  by_cases hf : Fetchable s
  · cases hd : decodeWord (s.mem.word s.pc.toNat) <;> simp [atCall, fetch_eq hf, hd, hf]
  · cases hw : fetch s with
    | error k => simp [atCall, hw, hf]
    | ok w => exact absurd (fetchable_of_fetch hw) hf

/-! ## The invariant -/

/-- The start of an invocation keeps the invariant (R245). -/
theorem State.Inv.beginInvocation (h : s.Inv) (hw : s.runState = .idle ∨ s.runState = .paused) {m : RunMode} {b : List Word}
    {tr : Option Word} {l : Int} (hargs : RunArguments m b tr l) : (beginInvocation m b tr l s).Inv := by
  constructor
  case memoryForm => exact h.memoryForm
  case memoryMapped => exact h.memoryMapped
  case zeroRegister => exact h.zeroRegister
  case snapshotAscending => exact hargs.ascending
  case transientListed => exact hargs.transientListed
  case clearWhenStopped => exact fun hne => absurd rfl hne
  case idleFresh => exact nofun
  case endedByReason =>
    refine iff_of_false nofun fun hends => ?_
    have hterm := h.endedByReason.mpr hends
    simp [hterm] at hw
  case recordAfterFault => exact h.recordAfterFault
  case withinLimit => exact fun _ hpos => hpos
  case singleMode => exact fun _ => hargs.single

theorem admitRun_inv (h : s.Inv) {start : State → State} (hbegins : Begins start s) {reply : HostReply}
    (ha : admitRun start s = (reply, t)) : t.Inv := by
  obtain ⟨hw, heq⟩ | ⟨-, heq⟩ := admitRun_cases start s <;> cases heq.symm.trans ha
  · obtain ⟨m, b, tr, l, hargs, hstart⟩ := hbegins
    rw [hstart]
    exact h.beginInvocation hw hargs
  · exact h

/-- The two request flags are free while the machine runs (R248). -/
theorem State.Inv.setRequests (h : s.Inv) (hr : s.runState = .running) (p q : Bool) :
    ({ s with pauseReq := p, stopReq := q } : State).Inv :=
  { h with clearWhenStopped := fun hne => absurd hr hne }

theorem inRange_of_mapped {a : Nat} (hal : a % 4 = 0) (h : mapped a = true) : InFetchRange a 4 ∨ InDataRange a 4 := by
  simp [mapped, Config.memoryMap] at h
  unfold InFetchRange InDataRange
  omega

/-- `load` of an image that keeps R280 establishes the invariant, whatever the state before it (R281). -/
theorem loadImage_inv {img : ProgramImage} (hwf : img.wellFormed = true) (s : State) : (loadImage img s).Inv := by
  obtain ⟨-, hwords⟩ := (wellFormed_iff img).mp hwf
  have hal : ∀ p ∈ img.words, p.1.toNat % 4 = 0 := fun p hp => (hwords p hp).1
  constructor
  case memoryForm => exact imageMemory_wf hal
  case memoryMapped =>
    intro a ha
    obtain ⟨p, hp, rfl⟩ := (present_imageMemory hal).mp ha
    exact inRange_of_mapped (hal p hp) (hwords p hp).2
  case zeroRegister => rfl
  case snapshotAscending => exact List.Pairwise.nil
  case clearWhenStopped => exact fun _ => ⟨rfl, rfl, rfl, rfl, rfl⟩
  all_goals simp

end Sys2Proof.Machine
end

section
/-! PROOF. The statements about the host calls. -/

namespace Sys2Proof.Proofs

open Sys2Proof.Machine

/-- Settles O11: a run request begins an invocation with arguments that agree with their mode, a pause or stop request sets a flag
that is free while Running, load builds a fresh state, and every other answer leaves the state. -/
theorem hostCallKeepsTheInvariant : Obligations.HostCallKeepsTheInvariant := by
  intro c s t reply h hc
  cases c <;> simp only [hostCall] at hc
  case load img =>
    split at hc
    case isTrue => cases hc; exact h
    case isFalse =>
      split at hc
      case isTrue hwf => cases hc; exact loadImage_inv hwf s
      case isFalse => cases hc
  case runContinuous b l => exact admitRun_inv h (startContinuous_begins b l s) (Host.Outcome.next.inj hc)
  case runSingleStep => exact admitRun_inv h (startSingleStep_begins s) (Host.Outcome.next.inj hc)
  case runStepOver b l => exact admitRun_inv h (startStepOver_begins b l s) (Host.Outcome.next.inj hc)
  case requestPause =>
    cases hc
    split
    case isTrue hr => exact h.setRequests hr true s.stopReq
    case isFalse => exact h
  case requestStop =>
    cases hc
    split
    case isTrue hr => exact h.setRequests hr s.pauseReq true
    case isFalse => exact h
  case readRegister | readMemoryWord =>
    split at hc
    case isTrue => cases hc
    case isFalse => cases hc; exact h

/-- Settles O52: the three run requests are one admission, and what it begins leaves the block and the last outcome. -/
theorem runRequestAdmission : Obligations.RunRequestAdmission := by
  intro s c b l hcall
  obtain ⟨start, heq, m, b', tr, l', -, hstart⟩ := hostCall_of_runRequest hcall s
  refine ⟨fun hw => ?_, fun hnw => ?_, fun hr img => ?_, fun hr id a => ?_, fun hr => ?_, ⟨_, rfl⟩, ⟨_, rfl⟩⟩
  · rw [heq, admitRun_of_waiting start hw, hstart]
    exact ⟨_, rfl, rfl, rfl, ⟨fun _ => rfl, rfl, rfl, rfl, rfl⟩, rfl, rfl⟩
  · rw [heq, admitRun_of_not_waiting start hnw]
  · simp [hostCall, hr]
  · simp [hostCall, hr]
  · simp [hostCall, hr, readRegisterPort]

/-- Settles O53: the arguments are those of `beginInvocation`; step-over is at a call exactly if `pc` fetches one. -/
theorem runRequestArguments : Obligations.RunRequestArguments := by
  intro s b l hw
  have hadmit (start : State → State) := admitRun_of_waiting start hw
  refine ⟨⟨startContinuous b l s, by rw [hostCall, hadmit], rfl, rfl, rfl, fun a => mem_breakpointSet⟩,
    ⟨startSingleStep s, by rw [hostCall, hadmit], rfl, rfl, rfl⟩, fun i hf hd hcat => ?_, fun hno => ?_⟩
  · have hcall : atCall s = true := atCall_iff.mpr ⟨hf, i, hd, hcat⟩
    refine ⟨_, by rw [hostCall, hadmit, startStepOver_of_call hcall], rfl, rfl, rfl, fun a => ?_⟩
    rw [beginInvocation_bpSnapshot, mem_insertBreakpoint, mem_breakpointSet, or_comm]
    rfl
  · have hcall : atCall s = false := by
      rw [Bool.eq_false_iff, ne_eq, atCall_iff]
      rintro ⟨hf, i, hd, hcat⟩
      exact hno.elim (fun h => h hf) fun h => h i hd hcat
    rw [hostCall, hostCall, hadmit, hadmit, startStepOver_of_not_call hcall]

/-- Settles O54: the count of the one completed step reaches the limit of 1, which is tested before every request. -/
theorem singleStepRunsOneCoreStep : Obligations.SingleStepRunsOneCoreStep := by
  intro s u v hcall hc
  obtain rfl := eq_start_of_accepted (Host.Outcome.next.inj hcall)
  have hr : (startSingleStep s).runState = .running := rfl
  cases coreOutcome_of_coreStep hr hc with
  | completes hv hkeeps =>
    have hend := stepBoundary_of_single hkeeps
    have hreport :=
      deliveredReport_of_ended hr (t := stepBoundary v) (r := .stepLimit) (by simp [hend]) (by simp [hend])
    exact ⟨_, _, runToReport_of_step (step_running hr hc) hreport 0,
      fun _ => ⟨by simp [hend], sameBlock_stepBoundary v, by simp [hend]⟩, fun hne => absurd hv hne⟩
  | faults | ends =>
    refine ⟨_, _, runToReport_of_step (step_of_ended hr hc ?_) (deliveredReport_of_ended hr ?_ rfl) 0, nofun,
      fun _ => ⟨rfl, rfl, rfl, rfl⟩⟩ <;> simp

/-- Settles O55: each request is one conditional update of its flag. -/
theorem requestsOutsideARunAreIgnored : Obligations.RequestsOutsideARunAreIgnored := by
  refine fun s => ⟨fun hr => ⟨?_, ?_⟩, fun hr => ⟨_, _, ?_, rfl, ?_, rfl⟩⟩
  all_goals simp [hostCall, hr]

end Sys2Proof.Proofs
end

section
/-! PROOF. The canonical form of log entry 2: its two lists hold exactly the nonzero bytes and the present words, and rising lists
with the same members are equal. -/

namespace Sys2Proof.Machine

variable {m n : Memory}

/-- In a rising list no earlier entry hides a later one. -/
theorem lookupCell_of_mem {cells : List Host.Cell} (hs : cells.Pairwise (fun c d => c.1 < d.1)) {c : Host.Cell}
    (hc : c ∈ cells) : lookupCell cells c.1 = c.2 := by
  induction cells with
  | nil => cases hc
  | cons d rest ih =>
    obtain ⟨hfirst, hrest⟩ := List.pairwise_cons.mp hs
    obtain rfl | hc := List.mem_cons.mp hc
    · simp [lookupCell]
    · simp [lookupCell, (hfirst c hc).ne, ih hrest hc]

/-- The bytes listed are the bytes that are not zero, each at its address. -/
theorem Memory.mem_cells_iff (hw : m.wf) {c : Host.Cell} : c ∈ m.cells ↔ c.2 ≠ 0 ∧ m.byte c.1 = c.2 := by
  obtain ⟨hrising, hcells, -, -⟩ := hw
  constructor
  · exact fun hc => ⟨(hcells c hc).1, lookupCell_of_mem hrising hc⟩
  · rintro ⟨hne, hbyte⟩
    obtain ⟨d, hd, haddr⟩ := mem_of_lookupCell_ne_zero (hbyte.trans_ne hne)
    have hvalue : d.2 = c.2 := by rw [← lookupCell_of_mem hrising hd, haddr]; exact hbyte
    rwa [← Prod.ext haddr hvalue]

theorem Memory.isPresent_iff {a : Nat} : m.isPresent a = true ↔ a ∈ m.present := decide_eq_true_iff

/-- Rising lists of bytes with the same members are equal. -/
theorem cells_eq_of_mem_iff {cs ds : List Host.Cell} (hc : cs.Pairwise (fun c d => c.1 < d.1))
    (hd : ds.Pairwise (fun c d => c.1 < d.1)) (h : ∀ c, c ∈ cs ↔ c ∈ ds) : cs = ds :=
  haveI : Std.Asymm fun c d : Host.Cell => c.1 < d.1 := ⟨fun _ _ => Nat.lt_asymm⟩
  hc.eq_of_mem_iff hd h

theorem Memory.cells_eq_of_byte_eq (hm : m.wf) (hn : n.wf) (h : ∀ a, m.byte a = n.byte a) : m.cells = n.cells :=
  cells_eq_of_mem_iff hm.1 hn.1 fun c => by rw [mem_cells_iff hm, mem_cells_iff hn, h]

theorem Memory.present_eq_of_isPresent_eq (hm : m.wf) (hn : n.wf) (h : ∀ a, m.isPresent a = n.isPresent a) :
    m.present = n.present := by
  obtain ⟨-, -, hrisingM, -⟩ := hm
  obtain ⟨-, -, hrisingN, -⟩ := hn
  exact hrisingM.eq_of_mem_iff hrisingN fun a => by rw [← isPresent_iff, ← isPresent_iff, h]

end Sys2Proof.Machine
end

section
/-! PROOF. The statement about the canonical form of memory. -/

namespace Sys2Proof.Proofs

open Sys2Proof.Machine

/-- Settles O12: the bytes read determine the one list, and the words present the other. -/
theorem equalMemoriesAreEqualData : Obligations.EqualMemoriesAreEqualData := by
  rintro ⟨cells, present⟩ ⟨cells', present'⟩ hm hn hbyte hpresent
  obtain rfl : cells = cells' := Memory.cells_eq_of_byte_eq hm hn hbyte
  obtain rfl : present = present' := Memory.present_eq_of_isPresent_eq hm hn hpresent
  rfl

end Sys2Proof.Proofs
end
